-- ==== Sys2Proof/Word.lean ====
section
/-! DEFINITION. The words of the Simpletron CORE (00_scope.md R6, 10_state.md R16). -/

namespace Sys2Proof

/-- A word: the 20 bits of an unsigned integer in [0, 0xFFFFF]; no bit is a sign bit (R16). -/
abbrev Word := BitVec 20

/-- The opcode field of a word, bits 19..12 (30_encoding.md R56). -/
abbrev Opcode := BitVec 8

/-- The operand field of a word, bits 11..0 (30_encoding.md R56). -/
abbrev Operand := BitVec 12

end Sys2Proof
end

