-- ==== Sys2Proof/Config.lean ====
section
/-! DEFINITION. The implementation parameters of 00_scope.md R6. The widths stand in Word.lean. -/

namespace Sys2Proof.Config

/-- `MEM_SIZE`: the memory has 1000 words, addresses 0 to 999 (R6, R28). -/
def memSize : Nat := 1000

/-- `MIN_INPUT`, the lower bound of the range check (R6). -/
def minInput : Int := 0

/-- `MAX_INPUT` = 0xFFFFF, the upper bound of the range check (R6). -/
def maxInput : Int := 0xFFFFF

/-- `OOR_EXIT_CODE`, the exit code of AddressOutOfRange: the spec's own choice, 5
(R6, R26, R98; 92_eei_decisions.md D7; log 7). -/
def oorExitCode : Nat := 5

end Sys2Proof.Config
end

