-- ==== Sys2Proof/Machine/State.lean ====
section
/-! DEFINITION. The state of the CORE (10_state.md), its reset value (R31), and the reasons a step can stop. -/

namespace Sys2Proof.Machine

/-- The four error kinds the CORE raises (60_exceptions.md R97). An error is a next state, not a fault
of this model: the run ends in ABORTED with the kind (R102; log 3). -/
inductive ErrorKind
  | invalidOpcode
  | addressOutOfRange
  | divideByZero
  | accumulatorOverflow
  deriving DecidableEq, Repr

/-- The run state (R25), with the state before the start of the run (R31). -/
inductive RunState
  | notStarted
  | running
  | waitInput
  | halted
  | aborted (k : ErrorKind)
  deriving DecidableEq, Repr

/-- The five registers (R15). -/
inductive Reg
  | acc
  | ic
  | ir
  | opc
  | opr
  deriving DecidableEq, Repr

/-- The memory array (R28): the words that are not 0, by rising address (log 1, log 2).
`Memory.wf` in Machine/Ops.lean is the canonical form. -/
abbrev Memory := List (Nat × Word)

/-- The payload of a `Dump` event: the five registers and the memory at that moment
(20_memory.md R52; log 14). -/
structure Dump where
  acc : Word
  ic  : Word
  ir  : Word
  opc : Word
  opr : Word
  mem : Memory
  deriving DecidableEq, Repr

/-- The output events (20_memory.md R52). -/
inductive Event
  | prompt
  | write (a : Operand) (v : Word)
  | newline
  | haltMessage
  | dump (d : Dump)
  | fatal (k : ErrorKind)
  deriving DecidableEq, Repr

/-- The whole state of the CORE (10_state.md), and the host's words still to come. -/
structure State where
  /-- ACC, the accumulator (R15, R17). -/
  acc : Word
  /-- IC, the instruction counter: the address of the next instruction (R15, R19). -/
  ic : Word
  /-- IR, the word just fetched (R15, R22). -/
  ir : Word
  /-- OPC, the decoded opcode, zero-extended (R15, R23). -/
  opc : Word
  /-- OPR, the decoded operand, zero-extended (R15, R23). -/
  opr : Word
  /-- The memory array (R28). -/
  mem : Memory
  /-- The run state (R25). -/
  runState : RunState
  /-- The exit code, a value only in a terminal state (R26). -/
  exitCode : Option Nat
  /-- Input channel: a request waits for the host's word (R31, R51). -/
  inputPending : Bool
  /-- Input channel: the number of requests made in this run (R32, R51; log 15). -/
  inputRequests : Nat
  /-- Output channel: the events emitted in this run, oldest first (R52). -/
  output : List Event
  /-- The model's own field, not state of the CORE: the words with which the host will answer the next
  requests, in order; none left means that the host does not answer (R51; log 5). -/
  answers : List Word
  deriving DecidableEq, Repr

/-- Why the machine has no next state. An error of the CORE is none of these (log 3, log 4). -/
inductive Fault
  /-- Raised by `step` before the host's start: the engine takes no step (R31, R65, R116). Safe. -/
  | notStarted
  /-- Raised by `step` in WAIT_INPUT when the host has given no word: the engine waits and takes no step
  (R51, R65). Safe. -/
  | awaitingInput
  /-- Raised by `step` in HALTED and ABORTED: a terminal state has no step (R74). Safe. -/
  | runEnded
  /-- Raised by the second step of READ when OPR is above 999, in states that no run reaches
  (R34, R69; log 13). Safe. -/
  | noSuchAddress
  deriving DecidableEq, Repr

/-- Why the model gives no meaning. No instruction of this model is refused. -/
inductive Refusal
  /-- Raised by `exec` for an instruction without a meaning; no arm of `exec` raises it. Safe. -/
  | notModelled (mnemonic : String)
  deriving DecidableEq, Repr

/-- What a meaning answers. -/
abbrev Result := Host.Outcome State Fault Refusal

/-- The state right after reset (R31, R114): every register and every memory word 0, the run not yet
started, no exit code, no request, no event. The empty `answers` is the model's own (log 5). -/
def State.reset : State where
  acc := 0
  ic := 0
  ir := 0
  opc := 0
  opr := 0
  mem := []
  runState := .notStarted
  exitCode := none
  inputPending := false
  inputRequests := 0
  output := []
  answers := []

end Sys2Proof.Machine
end

