-- ==== Sys2Proof/Machine/Flags.lean ====
section
/-! DEFINITION. The conditions computed from values. The hardware has no status flags (10_state.md R24);
the branches test ACC and the ALU tests the range when they execute. -/

namespace Sys2Proof.Machine

/-- `x[ACC] < 0` on the unsigned value of the word (44_control.md R93; 92_eei_decisions.md D3). -/
def isNegative (w : Word) : Bool := decide ((w.toNat : Int) < 0)

/-- `x[ACC] = 0` (44_control.md R94). -/
def isZero (w : Word) : Bool := decide (w = 0#20)

/-- `MIN_INPUT <= r <= MAX_INPUT`, on the exact result (00_scope.md R9, 43_arithmetic.md R83). -/
def inRange (r : Int) : Bool := decide (Config.minInput ≤ r ∧ r ≤ Config.maxInput)

end Sys2Proof.Machine
end

