-- ==== Sys2Proof/Machine/Alu.lean ====
section
/-! DEFINITION. The ALU with overflow detection (43_arithmetic.md R83 to R85). -/

namespace Sys2Proof.Machine

/-- The four operations of the ALU (R84, R90). -/
inductive AluOp
  | add
  | subtract
  | divide
  | multiply
  deriving DecidableEq, Repr

/-- The exact mathematical result, an unbounded integer (R83). The quotient is the integer quotient of
non-negative integers, its remainder discarded (R84, R88). -/
def exactResult : AluOp → Word → Word → Int
  | .add, x, m => (x.toNat : Int) + m.toNat
  | .subtract, x, m => (x.toNat : Int) - m.toNat
  | .divide, x, m => ((x.toNat / m.toNat : Nat) : Int)
  | .multiply, x, m => (x.toNat : Int) * m.toNat

/-- The range check before the assignment: an exact result outside the range is an overflow, never
clamped or wrapped (R83, R85). -/
def checkRange (r : Int) : Except ErrorKind Word :=
  if inRange r then .ok (BitVec.ofInt 20 r) else .error .accumulatorOverflow

/-- The ALU: a zero divisor is checked strictly before any quotient (R88, R100). -/
def alu (op : AluOp) (x m : Word) : Except ErrorKind Word :=
  match op with
  | .add => checkRange (exactResult .add x m)
  | .subtract => checkRange (exactResult .subtract x m)
  | .divide => if isZero m then .error .divideByZero else checkRange (exactResult .divide x m)
  | .multiply => checkRange (exactResult .multiply x m)

end Sys2Proof.Machine
end

