-- ==== Sys2Proof/Syntax.lean ====
section
/-! DEFINITION. The instructions: one constructor per row of spec/opcode_table.json. -/

namespace Sys2Proof

/-- The 14 instructions of 30_encoding.md R59, each with its 12-bit operand field (R62).
NEWLINE, HALT and TERMINATE ignore the field, whatever its value (R61), but their words have one. -/
inductive Instr
  | read (a : Operand)
  | write (a : Operand)
  | newline (x : Operand)
  | load (a : Operand)
  | store (a : Operand)
  | add (a : Operand)
  | subtract (a : Operand)
  | divide (a : Operand)
  | multiply (a : Operand)
  | branch (t : Operand)
  | branchneg (t : Operand)
  | branchzero (t : Operand)
  | halt (x : Operand)
  | terminate (x : Operand)
  deriving DecidableEq, Repr

/-- What an instruction uses its operand field for (R58). -/
inductive OperandKind
  | mem
  | target
  | ignored
  deriving DecidableEq, Repr

end Sys2Proof
end

