-- ==== Sys2Proof/WellFormed.lean ====
section
/-! DEFINITION. Operand kinds and the well-formed instructions (30_encoding.md R58).
The machine does not use these definitions: an instruction that is not well formed still decodes,
and its meaning ends the run with AddressOutOfRange (40_cycle.md R69). -/

namespace Sys2Proof

/-- The `operand` column of the opcode map (R59). -/
def Instr.kind : Instr → OperandKind
  | .read _ | .write _ | .load _ | .store _ => .mem
  | .add _ | .subtract _ | .divide _ | .multiply _ => .mem
  | .branch _ | .branchneg _ | .branchzero _ => .target
  | .newline _ | .halt _ | .terminate _ => .ignored

/-- The 12-bit operand field of the instruction's word. -/
def Instr.operand : Instr → Operand
  | .read a | .write a | .newline a | .load a | .store a => a
  | .add a | .subtract a | .divide a | .multiply a => a
  | .branch a | .branchneg a | .branchzero a => a
  | .halt a | .terminate a => a

/-- A `mem` or `target` operand is valid from 0 to 999; an ignored one always (R58, R61). -/
def Instr.wf (i : Instr) : Bool :=
  match i.kind with
  | .mem => decide (i.operand.toNat < Config.memSize)
  | .target => decide (i.operand.toNat < Config.memSize)
  | .ignored => true

end Sys2Proof
end

