-- ==== Sys2Proof/Decode.lean ====
section
/-! DEFINITION. Decoding a word and encoding an instruction (30_encoding.md R55 to R62). -/

namespace Sys2Proof

/-- Why a word is no instruction: its opcode is none of the 14 of R59 (R60). -/
inductive DecodeReject
  | invalidOpcode
  deriving DecidableEq, Repr

/-- Bits 19..12 of a word (R56). -/
def opcodeField (w : Word) : Opcode := w.extractLsb' 12 8

/-- Bits 11..0 of a word (R56). -/
def operandField (w : Word) : Operand := w.extractLsb' 0 12

/-- The word with the given fields: opcode * 0x1000 + operand (R56). -/
def wordOf (o : Opcode) (a : Operand) : Word := o ++ a

/-- The decoder, total on words (R62): the opcode map of R59, every other opcode invalid (R60). -/
def decode (w : Word) : Except DecodeReject Instr :=
  match (opcodeField w).toNat with
  | 0x10 => .ok (.read (operandField w))
  | 0x11 => .ok (.write (operandField w))
  | 0x13 => .ok (.newline (operandField w))
  | 0x20 => .ok (.load (operandField w))
  | 0x21 => .ok (.store (operandField w))
  | 0x30 => .ok (.add (operandField w))
  | 0x31 => .ok (.subtract (operandField w))
  | 0x32 => .ok (.divide (operandField w))
  | 0x33 => .ok (.multiply (operandField w))
  | 0x40 => .ok (.branch (operandField w))
  | 0x41 => .ok (.branchneg (operandField w))
  | 0x42 => .ok (.branchzero (operandField w))
  | 0x43 => .ok (.halt (operandField w))
  | 0xFF => .ok (.terminate (operandField w))
  | _ => .error .invalidOpcode

/-- The encoder: the word of an instruction by the opcode map (R59, R63). -/
def encode : Instr → Word
  | .read a => wordOf 0x10 a
  | .write a => wordOf 0x11 a
  | .newline x => wordOf 0x13 x
  | .load a => wordOf 0x20 a
  | .store a => wordOf 0x21 a
  | .add a => wordOf 0x30 a
  | .subtract a => wordOf 0x31 a
  | .divide a => wordOf 0x32 a
  | .multiply a => wordOf 0x33 a
  | .branch t => wordOf 0x40 t
  | .branchneg t => wordOf 0x41 t
  | .branchzero t => wordOf 0x42 t
  | .halt x => wordOf 0x43 x
  | .terminate x => wordOf 0xFF x

/-- The memory word that a numbered word of spec/opcode_table.json is, with the bits from `nbits` up
zero; none where the number does not fit the 20 bits of a word (log 11). -/
def tableWord (nbits w : Nat) : Option Word :=
  if w % 2 ^ nbits < 2 ^ 20 then some (BitVec.ofNat 20 (w % 2 ^ nbits)) else none

/-- The instruction the decoder reads from a word numbered as spec/opcode_table.json numbers it:
an instruction is one word, bit 0 its least significant bit (R8, R55; log 11). -/
def decodeTableWord (nbits w : Nat) : Option Instr :=
  match tableWord nbits w with
  | none => none
  | some v =>
    match decode v with
    | .ok i => some i
    | .error _ => none

end Sys2Proof
end

