-- ==== Sys2Proof/Machine/Ops.lean ====
section
/-! DEFINITION. The named operations over memory, registers, channels and run state
(the primitives of 00_scope.md R10), and raising an error (60_exceptions.md R102).
There is no return from an error (R105), so none stands here. -/

namespace Sys2Proof.Machine

/-! ### The memory array -/

/-- `MemRead(a, 1)` (20_memory.md R35): the word listed at `a`; an address that is not listed holds 0. -/
def Memory.read : Memory → Nat → Word
  | [], _ => 0#20
  | (b, w) :: m, a => if a = b then w else Memory.read m a

/-- A cell in front of a memory, left out when its word is 0. -/
def Memory.push (a : Nat) (v : Word) (m : Memory) : Memory :=
  if v = 0#20 then m else (a, v) :: m

/-- `MemWrite(a, 1, v)` (20_memory.md R36), keeping the canonical form. -/
def Memory.write : Memory → Nat → Word → Memory
  | [], a, v => Memory.push a v []
  | (b, w) :: m, a, v =>
    if a < b then Memory.push a v ((b, w) :: m)
    else if a = b then Memory.push a v m
    else (b, w) :: Memory.write m a v

/-- Every listed address lies at or above `lo`, the addresses rise strictly and stay inside the memory,
and no listed word is 0. -/
def Memory.wfFrom : Nat → Memory → Bool
  | _, [] => true
  | lo, (a, v) :: m =>
    decide (lo ≤ a) && decide (a < Config.memSize) && decide (v ≠ 0#20) && Memory.wfFrom (a + 1) m

/-- The canonical form of a memory (log 2). -/
def Memory.wf (m : Memory) : Bool := Memory.wfFrom 0 m

/-! ### The register file -/

/-- `x[r]` (R10). -/
def State.get (s : State) : Reg → Word
  | .acc => s.acc
  | .ic => s.ic
  | .ir => s.ir
  | .opc => s.opc
  | .opr => s.opr

/-- `x[r] <- v` (R10). -/
def State.set (s : State) (r : Reg) (v : Word) : State :=
  match r with
  | .acc => { s with acc := v }
  | .ic => { s with ic := v }
  | .ir => { s with ir := v }
  | .opc => { s with opc := v }
  | .opr => { s with opr := v }

/-! ### The memory port (20_memory.md R33) -/

/-- The word the memory port reads at `a` (R35). -/
def State.load (s : State) (a : Nat) : Word := s.mem.read a

/-- The state after the memory port writes `v` at `a` (R36). -/
def State.store (s : State) (a : Nat) (v : Word) : State := { s with mem := s.mem.write a v }

/-! ### The channels (20_memory.md R51, R52) -/

/-- `Emit(e)`: append the event; it never waits (R52). -/
def emit (e : Event) (s : State) : State := { s with output := s.output ++ [e] }

/-- The payload of a dump taken now (R52). -/
def dumpOf (s : State) : Dump where
  acc := s.get .acc
  ic := s.get .ic
  ir := s.get .ir
  opc := s.get .opc
  opr := s.get .opr
  mem := s.mem

/-- Send one request on the input channel and wait (R51, 41_io.md R77 step 1). -/
def requestInput (s : State) : State :=
  { s with runState := .waitInput, inputPending := true, inputRequests := s.inputRequests + 1 }

/-- Take the word of the host's answer, whose successors are `rest`: the request is answered and the
engine runs again (R51, R77 step 2). -/
def acceptInput (rest : List Word) (s : State) : State :=
  { s with runState := .running, inputPending := false, answers := rest }

/-! ### The instruction counter (10_state.md R20) -/

/-- `advance` (40_cycle.md R71). The sum is a 20-bit one; IC is at most 999 whenever an instruction
runs (R65), so it never wraps (R21; log 16). -/
def advance (s : State) : State := s.set .ic (s.get .ic + 1)

/-- `pc <- t` with the operand zero-extended (44_control.md R91). -/
def jump (t : Operand) (s : State) : State := s.set .ic (t.setWidth 20)

/-! ### Fetch and decode -/

/-- Fetch (40_cycle.md R66). -/
def fetchWord (s : State) : State := s.set .ir (s.load (s.get .ic).toNat)

/-- Decode the fields of IR into OPC and OPR, zero-extended (40_cycle.md R67). -/
def decodeFields (s : State) : State :=
  (s.set .opc ((opcodeField (s.get .ir)).setWidth 20)).set .opr ((operandField (s.get .ir)).setWidth 20)

/-! ### Ending a run -/

/-- The exit code of an error kind (60_exceptions.md R98). -/
def exitCodeOf : ErrorKind → Nat
  | .invalidOpcode => 3
  | .addressOutOfRange => Config.oorExitCode
  | .divideByZero => 2
  | .accumulatorOverflow => 4

/-- `finish(HALTED)` (40_cycle.md R72). -/
def finish (s : State) : State := { s with runState := .halted, exitCode := some 0 }

/-- `raise K` (60_exceptions.md R102): dump, fatal event, ABORTED(K), exit code. The state it is given
is the one before the instruction with IR, OPC and OPR of its word (R103). -/
def raise (k : ErrorKind) (s : State) : State :=
  let t := emit (.fatal k) (emit (.dump (dumpOf s)) s)
  { t with runState := .aborted k, exitCode := some (exitCodeOf k) }

/-! ### Placing a word for the host's check -/

/-- The address the next fetch reads: IC, or 0 where IC is past the memory (log 12). -/
def fetchSlot (s : State) : Word := if (s.get .ic).toNat < Config.memSize then s.get .ic else 0

/-- `w` at the next fetch's address in a started run (log 6, log 12). -/
def placeWord (s : State) (w : Word) : State :=
  { s with
    ic := fetchSlot s
    mem := s.mem.write (fetchSlot s).toNat w
    runState := .running
    exitCode := none
    inputPending := false }

end Sys2Proof.Machine
end

