-- ==== Sys2Proof/Machine/Operands.lean ====
section
/-! DEFINITION. The one operand form with an address: direct (42_load_store.md R80), checked against the
memory size before the instruction's rule runs (40_cycle.md R69). -/

namespace Sys2Proof.Machine

/-- The operand check of 40_cycle.md R69: run the instruction's rule with the effective address, or raise
AddressOutOfRange. It is used for the operand kinds `mem` and `target` (30_encoding.md R58). -/
def withAddress (a : Operand) (s : State) (rule : Nat → State) : Result :=
  if a.toNat < Config.memSize then .next (rule a.toNat) else .next (raise .addressOutOfRange s)

end Sys2Proof.Machine
end

