-- ==== Sys2Proof/Machine/Arithmetic.lean ====
section
/-! DEFINITION. ADD, SUBTRACT, DIVIDE and MULTIPLY (43_arithmetic.md). -/

namespace Sys2Proof.Machine

/-- What an arithmetic instruction does with the ALU's answer (43_arithmetic.md R83): write ACC and advance,
or raise the error and write nothing. -/
def writeResult (r : Except ErrorKind Word) (s : State) : State :=
  match r with
  | .ok v => advance (s.set .acc v)
  | .error k => raise k s

/-- The shared operation of the four instructions: ACC op memory[a] through the ALU (R83). -/
def arith (op : AluOp) (a : Operand) (s : State) : Result :=
  withAddress a s fun addr => writeResult (alu op (s.get .acc) (s.load addr)) s

/-- ADD (43_arithmetic.md R86). -/
def execAdd (a : Operand) (s : State) : Result := arith .add a s

/-- SUBTRACT (43_arithmetic.md R87). -/
def execSubtract (a : Operand) (s : State) : Result := arith .subtract a s

/-- DIVIDE (43_arithmetic.md R88). -/
def execDivide (a : Operand) (s : State) : Result := arith .divide a s

/-- MULTIPLY (43_arithmetic.md R89). -/
def execMultiply (a : Operand) (s : State) : Result := arith .multiply a s

end Sys2Proof.Machine
end

