-- ==== Sys2Proof/Machine/Control.lean ====
section
/-! DEFINITION. BRANCH, BRANCHNEG and BRANCHZERO (44_control.md). -/

namespace Sys2Proof.Machine

/-- The shared operation of the branches (44_control.md R91): a taken branch sets IC and does not advance;
one that is not taken advances. The target is checked either way (40_cycle.md R69). -/
def branchIf (taken : Bool) (t : Operand) (s : State) : Result :=
  withAddress t s fun _ => if taken then jump t s else advance s

/-- BRANCH (44_control.md R92). -/
def execBranch (t : Operand) (s : State) : Result := branchIf true t s

/-- BRANCHNEG (44_control.md R93). -/
def execBranchneg (t : Operand) (s : State) : Result := branchIf (isNegative (s.get .acc)) t s

/-- BRANCHZERO (44_control.md R94). -/
def execBranchzero (t : Operand) (s : State) : Result := branchIf (isZero (s.get .acc)) t s

end Sys2Proof.Machine
end

