-- ==== Sys2Proof/Machine/Io.lean ====
section
/-! DEFINITION. READ, WRITE and NEWLINE (41_io.md). -/

namespace Sys2Proof.Machine

/-- READ, step 1 (41_io.md R77): prompt, request one word, wait. -/
def execRead (a : Operand) (s : State) : Result :=
  withAddress a s fun _ => requestInput (emit .prompt s)

/-- READ, step 2 (41_io.md R77): store the host's word at OPR, run again, advance. OPR is at most 999 in
every state a READ waits in (R69); above it there is no address (R34; log 13). -/
def finishRead (w : Word) (rest : List Word) (s : State) : Result :=
  if (s.get .opr).toNat < Config.memSize then
    .next (advance (acceptInput rest (s.store (s.get .opr).toNat w)))
  else .fault .noSuchAddress

/-- WRITE (41_io.md R78): emit the word at the operand. -/
def execWrite (a : Operand) (s : State) : Result :=
  withAddress a s fun addr => advance (emit (.write a (s.load addr)) s)

/-- NEWLINE (41_io.md R79): emit a line break; the operand is ignored. -/
def execNewline (s : State) : Result := .next (advance (emit .newline s))

end Sys2Proof.Machine
end

