-- ==== Sys2Proof/Machine/LoadStore.lean ====
section
/-! DEFINITION. LOAD and STORE (42_load_store.md). -/

namespace Sys2Proof.Machine

/-- LOAD (42_load_store.md R81). -/
def execLoad (a : Operand) (s : State) : Result :=
  withAddress a s fun addr => advance (s.set .acc (s.load addr))

/-- STORE (42_load_store.md R82). -/
def execStore (a : Operand) (s : State) : Result :=
  withAddress a s fun addr => advance (s.store addr (s.get .acc))

end Sys2Proof.Machine
end

