-- ==== Sys2Proof/Machine/Termination.lean ====
section
/-! DEFINITION. HALT and TERMINATE (45_termination.md). -/

namespace Sys2Proof.Machine

/-- HALT (45_termination.md R95): message, dump, HALTED with exit code 0; IC is not advanced. -/
def execHalt (s : State) : Result := .next (finish (emit (.dump (dumpOf s)) (emit .haltMessage s)))

/-- TERMINATE (45_termination.md R96): HALTED with exit code 0, no event; IC is not advanced. -/
def execTerminate (s : State) : Result := .next (finish s)

end Sys2Proof.Machine
end

