-- ==== Sys2Proof/Machine/Dispatch.lean ====
section
/-! DEFINITION. The execute of 40_cycle.md R70: one meaning per instruction, the operand check of R69
within it. -/

namespace Sys2Proof.Machine

def exec (i : Instr) (s : State) : Host.Outcome State Fault Refusal :=
  match i with
  | .read a => Sys2Proof.Machine.execRead a s
  | .write a => Sys2Proof.Machine.execWrite a s
  | .newline _ => Sys2Proof.Machine.execNewline s
  | .load a => Sys2Proof.Machine.execLoad a s
  | .store a => Sys2Proof.Machine.execStore a s
  | .add a => Sys2Proof.Machine.execAdd a s
  | .subtract a => Sys2Proof.Machine.execSubtract a s
  | .divide a => Sys2Proof.Machine.execDivide a s
  | .multiply a => Sys2Proof.Machine.execMultiply a s
  | .branch t => Sys2Proof.Machine.execBranch t s
  | .branchneg t => Sys2Proof.Machine.execBranchneg t s
  | .branchzero t => Sys2Proof.Machine.execBranchzero t s
  | .halt _ => Sys2Proof.Machine.execHalt s
  | .terminate _ => Sys2Proof.Machine.execTerminate s

end Sys2Proof.Machine
end

