-- ==== Sys2Proof/Machine/Cycle.lean ====
section
/-! DEFINITION. The fetch-decode-execute cycle (40_cycle.md), which Step.lean calls. -/

namespace Sys2Proof.Machine

/-- The opcode check (40_cycle.md R68) and the execute (R70) on the word in IR. -/
def checkAndExecute (s : State) : Result :=
  match decode (s.get .ir) with
  | .ok i => exec i s
  | .error .invalidOpcode => .next (raise .invalidOpcode s)

/-- One cycle in the run state RUNNING: the end test (R65), then fetch, decode, checks and execute
(R66 to R70). -/
def cycle (s : State) : Result :=
  if Config.memSize ≤ (s.get .ic).toNat then .next (finish s)
  else checkAndExecute (decodeFields (fetchWord s))

/-- One step of the engine (R65): a cycle when RUNNING, the second step of READ when the host has answered;
there is no step before the start, while the host does not answer (R51), or in a terminal state (R74). -/
def engineStep (s : State) : Result :=
  match s.runState with
  | .notStarted => .fault .notStarted
  | .running => cycle s
  | .waitInput =>
    match s.answers with
    | [] => .fault .awaitingInput
    | w :: rest => finishRead w rest s
  | .halted => .fault .runEnded
  | .aborted _ => .fault .runEnded

end Sys2Proof.Machine
end

