-- ==== Sys2Proof/Machine/Step.lean ====
section
/-! DEFINITION. One step of the machine, and placing an instruction where the next step fetches it. -/

namespace Sys2Proof.Machine

/-- One step of the machine: one step of its only agent, the engine (20_memory.md R48, 40_cycle.md R65). -/
def step (s : State) : Host.Outcome State Fault Refusal := engineStep s

/-- `s` with the table's word placed at the next fetch's address and the run started, so that the next
step fetches and runs it: it stands for the host's preload of that word and the start (log 6, log 12).
A number that is no word changes nothing. -/
def State.withFetchWord (s : State) (nbits w : Nat) : State :=
  match tableWord nbits w with
  | some v => placeWord s v
  | none => s

end Sys2Proof.Machine
end

