-- ==== Sys2Proof/Machine/HostPort.lean ====
section
/-! DEFINITION. The host's transactions that change state (20_memory.md R48): they are not steps of the
engine. Reading the output events and the status changes nothing (R52, R53). -/

namespace Sys2Proof.Machine

/-- Reset, in any run state (70_reset_and_hazards.md R114): every piece of state takes its reset value
(log 18 for the host's own words). -/
def hostReset (_ : State) : State := .reset

/-- Preload one word, after reset and before the start (20_memory.md R49, R115); none where the host may
not do it (log 17). -/
def hostPreload (a : Nat) (w : Word) (s : State) : Option State :=
  if s.runState = .notStarted ∧ a < Config.memSize then some (s.store a w) else none

/-- Start the run, once per reset (R116); none where the host may not do it (log 17). -/
def hostStart (s : State) : Option State :=
  if s.runState = .notStarted then some { s with runState := .running } else none

/-- Answer the pending request with any one word (R51); none where no request waits for a word
(R48; log 17). -/
def hostAnswer (w : Word) (s : State) : Option State :=
  if s.runState = .waitInput ∧ s.answers = [] then some { s with answers := [w] } else none

end Sys2Proof.Machine
end

