-- ==== Sys2Proof/Safety.lean ====
section
/-! DEFINITION. What counts as a state a run may be in, and the terms the statements use. The states after
a fetch and after an error are written out here from the rules, apart from the operations of
Machine/Ops.lean. -/

namespace Sys2Proof.Machine

/-- The state after the fetch and the decode of the fields, by the document's division and remainder
(40_cycle.md R66, R67; 30_encoding.md R56). -/
def afterFetch (s : State) : State :=
  { s with
    ir := s.mem.read s.ic.toNat
    opc := BitVec.ofNat 20 ((s.mem.read s.ic.toNat).toNat / 4096)
    opr := BitVec.ofNat 20 ((s.mem.read s.ic.toNat).toNat % 4096) }

/-- The dump of `s`: the five registers and the memory (20_memory.md R52). -/
def dumpEvent (s : State) : Event :=
  .dump { acc := s.acc, ic := s.ic, ir := s.ir, opc := s.opc, opr := s.opr, mem := s.mem }

/-- The state after the error `k` with the exit code `code` is raised at `s` (60_exceptions.md R102): two
events, the run state and the exit code; nothing else changes (R103). -/
def afterError (s : State) (k : ErrorKind) (code : Nat) : State :=
  { s with
    output := s.output ++ [dumpEvent s, .fatal k]
    runState := .aborted k
    exitCode := some code }

/-- The 242 invalid opcodes, as 30_encoding.md R60 lists them. -/
abbrev InvalidOpcodeValue (n : Nat) : Prop :=
  n ≤ 0x0F ∨ n = 0x12 ∨ (0x14 ≤ n ∧ n ≤ 0x1F) ∨ (0x22 ≤ n ∧ n ≤ 0x2F) ∨ (0x34 ≤ n ∧ n ≤ 0x3F) ∨
    (0x44 ≤ n ∧ n ≤ 0xFE)

/-- The exit code that a run state goes with (R26, R98): none before a terminal state. -/
def RunState.expectedExit : RunState → Option Nat
  | .halted => some 0
  | .aborted .invalidOpcode => some 3
  | .aborted .addressOutOfRange => some Config.oorExitCode
  | .aborted .divideByZero => some 2
  | .aborted .accumulatorOverflow => some 4
  | _ => none

/-- The word at IC, which the next cycle fetches (40_cycle.md R66). -/
def fetchedWord (s : State) : Word := s.mem.read s.ic.toNat

/-- The state once the end test of 40_cycle.md R65 has been made at it: HALTED if the run is RUNNING with IC
past the memory, else the state itself. It is the state of which 10_state.md R19 and 90_conflicts.md C8 hold
to the letter (log 9). -/
def afterEndTest (s : State) : State :=
  if s.runState = .running ∧ 1000 ≤ s.ic.toNat then { s with runState := .halted, exitCode := some 0 } else s

/-- Memory is unchanged at every address. -/
def SameMemory (s t : State) : Prop := ∀ b : Nat, t.mem.read b = s.mem.read b

/-- Memory is unchanged at every address but `a`. -/
def SameMemoryBut (a : Nat) (s t : State) : Prop := ∀ b : Nat, b ≠ a → t.mem.read b = s.mem.read b

/-- An outcome with its next state changed by `f`. -/
def mapNext (f : State → State) : Result → Result
  | .next t => .next (f t)
  | .fault r => .fault r
  | .refused r => .refused r

/-- The invariant of the machine: what holds in every state of a run. -/
structure State.Inv (s : State) : Prop where
  /-- The memory is in its canonical form. -/
  mem_wf : s.mem.wf = true
  /-- OPC and OPR are the fields of IR (R23). -/
  opc_field : s.opc.toNat = s.ir.toNat / 4096
  opr_field : s.opr.toNat = s.ir.toNat % 4096
  /-- IC is at most 1000, and an address of the memory but after an advance from address 999 (R19, R21). -/
  ic_le : s.ic.toNat ≤ 1000
  /-- The exit code is the one of the run state (R26, R98). -/
  exit_code : s.exitCode = s.runState.expectedExit
  /-- A request is pending exactly in WAIT_INPUT (R51). -/
  pending_iff : s.inputPending = true ↔ s.runState = .waitInput
  /-- Every request was prompted for, and nothing else was (R52, R77). -/
  requests_prompted : s.output.count .prompt = s.inputRequests
  /-- Before the start nothing has run (R31, R115). -/
  fresh : s.runState = .notStarted → s.acc = 0 ∧ s.ic = 0 ∧ s.ir = 0 ∧ s.output = []
  /-- WAIT_INPUT is inside the READ at address IC, whose operand is an address (R77, R69). -/
  waiting : s.runState = .waitInput →
    s.ic.toNat ≤ 999 ∧ s.mem.read s.ic.toNat = s.ir ∧ s.opc = 0x10 ∧ s.opr.toNat ≤ 999
  /-- A halted run ended past the memory, or at the HALT or TERMINATE at address IC (R20, R21). -/
  halted : s.runState = .halted →
    s.ic.toNat = 1000 ∨ (s.mem.read s.ic.toNat = s.ir ∧ (s.opc = 0x43 ∨ s.opc = 0xFF))
  /-- An aborted run ended at the instruction at address IC, and its last events are the dump of this very
  state and the fatal event (R102, R103). -/
  aborted : ∀ k, s.runState = .aborted k →
    s.ic.toNat ≤ 999 ∧ s.mem.read s.ic.toNat = s.ir ∧
    [dumpEvent s, .fatal k] <:+ s.output

/-- The states of all runs: from reset, by steps of the engine and by the transactions of the host
(20_memory.md R48), whatever words the host will answer with. -/
inductive Reachable : State → Prop
  | reset : Reachable .reset
  | preload {s t : State} {a : Nat} {w : Word} : Reachable s → hostPreload a w s = some t → Reachable t
  | start {s t : State} : Reachable s → hostStart s = some t → Reachable t
  | answer {s t : State} {w : Word} : Reachable s → hostAnswer w s = some t → Reachable t
  | words {s : State} {ws : List Word} : Reachable s → Reachable { s with answers := ws }
  | engine {s t : State} : Reachable s → step s = .next t → Reachable t

end Sys2Proof.Machine
end

