-- ==== Sys2Proof/Certificates/Slice0/Obligations.lean ====
section
/-! DEFINITION. The statements about the machine, each from a rule of spec/ named in its docstring.
`afterFetch` and `afterError` (Safety.lean) are 40_cycle.md R66 and R67 and 60_exceptions.md R102 written
out. An exit code written `Config.oorExitCode` is the spec's parameter `OOR_EXIT_CODE` (D7, log 7). -/

open Sys2Proof Sys2Proof.Machine

/-! ### Encoding -/

/-- 30_encoding.md R59, R62, R63: decoding the word of an instruction gives the instruction back, for every
instruction and every value of its operand field. -/
def Obligations.DecodeOfEncodeIsIdentity : Prop :=
  ∀ i : Instr, decode (encode i) = .ok i

/-- 30_encoding.md R62: a word that decodes is the word of what it decodes to, so no two words share a
meaning and no bit is dropped. -/
def Obligations.DecodedWordReencodes : Prop :=
  ∀ (w : Word) (i : Instr), decode w = .ok i → encode i = w

/-- 30_encoding.md R56, R59: the word opcode * 0x1000 + operand of each row of the opcode map decodes to the
row's instruction with that operand. -/
def Obligations.OpcodeMapDecodes : Prop :=
  ∀ a : Operand,
    decode (BitVec.ofNat 20 (0x10 * 0x1000 + a.toNat)) = .ok (.read a) ∧
    decode (BitVec.ofNat 20 (0x11 * 0x1000 + a.toNat)) = .ok (.write a) ∧
    decode (BitVec.ofNat 20 (0x13 * 0x1000 + a.toNat)) = .ok (.newline a) ∧
    decode (BitVec.ofNat 20 (0x20 * 0x1000 + a.toNat)) = .ok (.load a) ∧
    decode (BitVec.ofNat 20 (0x21 * 0x1000 + a.toNat)) = .ok (.store a) ∧
    decode (BitVec.ofNat 20 (0x30 * 0x1000 + a.toNat)) = .ok (.add a) ∧
    decode (BitVec.ofNat 20 (0x31 * 0x1000 + a.toNat)) = .ok (.subtract a) ∧
    decode (BitVec.ofNat 20 (0x32 * 0x1000 + a.toNat)) = .ok (.divide a) ∧
    decode (BitVec.ofNat 20 (0x33 * 0x1000 + a.toNat)) = .ok (.multiply a) ∧
    decode (BitVec.ofNat 20 (0x40 * 0x1000 + a.toNat)) = .ok (.branch a) ∧
    decode (BitVec.ofNat 20 (0x41 * 0x1000 + a.toNat)) = .ok (.branchneg a) ∧
    decode (BitVec.ofNat 20 (0x42 * 0x1000 + a.toNat)) = .ok (.branchzero a) ∧
    decode (BitVec.ofNat 20 (0x43 * 0x1000 + a.toNat)) = .ok (.halt a) ∧
    decode (BitVec.ofNat 20 (0xFF * 0x1000 + a.toNat)) = .ok (.terminate a)

/-- 30_encoding.md R60, 40_cycle.md R68: the invalid opcodes are the 242 values R60 lists, whatever the
operand; a fetched word with one of them ends the run with InvalidOpcode, and ACC, IC and memory are as
before. The word 0x00000 is one. -/
def Obligations.InvalidOpcodesEndTheRun : Prop :=
  (∀ w : Word, decode w = .error .invalidOpcode ↔ InvalidOpcodeValue (w.toNat / 4096)) ∧
  ((List.range 256).filter fun n => decide (InvalidOpcodeValue n)).length = 242 ∧
  decode 0x00000 = .error .invalidOpcode ∧
  ∀ s : State, s.runState = .running → s.ic.toNat < 1000 →
    InvalidOpcodeValue ((fetchedWord s).toNat / 4096) →
    step s = .next (afterError (afterFetch s) .invalidOpcode 3)

/-- 30_encoding.md R59, 95_test_vectors.md L2.1: words written out from the spec decode to their
instructions. -/
def Obligations.SampleWordsDecode : Prop :=
  decode 0x20005 = .ok (.load 5) ∧ decode 0x203E7 = .ok (.load 999) ∧ decode 0x21007 = .ok (.store 7) ∧
  decode 0x10032 = .ok (.read 50) ∧ decode 0x32033 = .ok (.divide 51) ∧
  decode 0x42008 = .ok (.branchzero 8) ∧ decode 0x13FFF = .ok (.newline 0xFFF) ∧
  decode 0xFFFFF = .ok (.terminate 0xFFF) ∧ decode 0x12000 = .error .invalidOpcode ∧
  decode 0x99FFF = .error .invalidOpcode

/-! ### The cycle -/

/-- 40_cycle.md R66, R67, R70: when the word at IC decodes to `i`, a step in the run state RUNNING is the
execution of `i` at the state in which the fetch has written IR and the decode OPC and OPR. The operand
check of R69 is part of `exec` (log 10). -/
def Obligations.StepRunsDecodedInstruction : Prop :=
  ∀ (s : State) (i : Instr), s.runState = .running → s.ic.toNat < 1000 → decode (fetchedWord s) = .ok i →
    step s = exec i (afterFetch s)

/-- 40_cycle.md R66, R67: every cycle that fetches writes IR with the word at IC, OPC with its quotient and
OPR with its remainder by 0x1000, whether the instruction completes or ends the run. -/
def Obligations.FetchAndDecodeWriteTheFields : Prop :=
  ∀ s : State, s.runState = .running → s.ic.toNat < 1000 →
    ∃ t, step s = .next t ∧ t.ir = s.mem.read s.ic.toNat ∧
      t.opc.toNat = (s.mem.read s.ic.toNat).toNat / 0x1000 ∧
      t.opr.toNat = (s.mem.read s.ic.toNat).toNat % 0x1000

/-- 40_cycle.md R69, 92_eei_decisions.md D6 (the spec's own choice): an operand of kind `mem` or `target`
above 999 ends the run with AddressOutOfRange, for a conditional branch whether or not it would be taken;
ACC, IC and memory are as before. -/
def Obligations.OperandAboveMemoryEndsTheRun : Prop :=
  ∀ (i : Instr) (s : State), i.kind ≠ .ignored → 1000 ≤ i.operand.toNat →
    exec i s = .next (afterError s .addressOutOfRange Config.oorExitCode)

/-- 40_cycle.md R65, R72 and 92_eei_decisions.md D20 (the spec's own choice: no event): with IC past the memory the
step ends the run HALTED with exit code 0, fetches nothing and emits nothing. -/
def Obligations.EndOfMemoryHalts : Prop :=
  ∀ s : State, s.runState = .running → 1000 ≤ s.ic.toNat →
    step s = .next { s with runState := .halted, exitCode := some 0 }

/-- 40_cycle.md R65, 20_memory.md R51: the engine has a step exactly when RUNNING, or when WAIT_INPUT has
the host's word (and OPR is an address, log 13); before the start, and without the host's word, it has none
(the faults' names are the model's, log 4). -/
def Obligations.EngineStepsExactlyWhen : Prop :=
  (∀ s : State, (∃ t, step s = .next t) ↔
    s.runState = .running ∨ (s.runState = .waitInput ∧ s.answers ≠ [] ∧ s.opr.toNat < 1000)) ∧
  (∀ s : State, s.runState = .notStarted → step s = .fault .notStarted) ∧
  (∀ s : State, s.runState = .waitInput → s.answers = [] → step s = .fault .awaitingInput)

/-- 40_cycle.md R74: in HALTED and ABORTED the engine has no step and no transaction of the host but reset
changes the state (reset in any run state is 92_eei_decisions.md D22, the spec's own choice). The model's
choices, no rule of the spec: the fault's name `runEnded` (log 4), that a transaction outside its window answers
none (log 17), and that reset gives `State.reset` with the model's own field `answers` empty too (log 18). -/
def Obligations.TerminalStatesHaveNoStep : Prop :=
  ∀ s : State, (s.runState = .halted ∨ ∃ k, s.runState = .aborted k) →
    step s = .fault .runEnded ∧ (∀ a w, hostPreload a w s = none) ∧ hostStart s = none ∧
    (∀ w, hostAnswer w s = none) ∧ hostReset s = State.reset

/-- 60_exceptions.md R98: the exit code of every terminal state a step reaches, whatever ended the run (the
5 of AddressOutOfRange is the spec's parameter `OOR_EXIT_CODE`). -/
def Obligations.ExitCodeOfEveryEnd : Prop :=
  ∀ s t : State, step s = .next t →
    (t.runState = .halted → t.exitCode = some 0) ∧
    (t.runState = .aborted .invalidOpcode → t.exitCode = some 3) ∧
    (t.runState = .aborted .addressOutOfRange → t.exitCode = some 5) ∧
    (t.runState = .aborted .divideByZero → t.exitCode = some 2) ∧
    (t.runState = .aborted .accumulatorOverflow → t.exitCode = some 4)

/-- 10_state.md R25, 40_cycle.md R73: how a step moves the run state: from RUNNING to RUNNING, to a terminal
state, or by a READ to WAIT_INPUT; from WAIT_INPUT to RUNNING; never back before the start. -/
def Obligations.RunStateMoves : Prop :=
  ∀ s t : State, step s = .next t →
    t.runState ≠ .notStarted ∧
    (s.runState = .waitInput → t.runState = .running) ∧
    (t.runState = .waitInput →
      s.runState = .running ∧ ∃ a : Operand, decode (fetchedWord s) = .ok (.read a) ∧ a.toNat < 1000)

/-- 40_cycle.md R70 (every instruction rule ends in one of its outcomes): every instruction, with every
operand and in every state, answers a next state, and no step of the machine is refused. -/
def Obligations.ExecAnswersForEveryInstruction : Prop :=
  (∀ (i : Instr) (s : State), ∃ t, exec i s = .next t) ∧ ∀ (s : State) (r : Refusal), step s ≠ .refused r

/-- 40_cycle.md R73, 41_io.md R77: a READ in a run is two steps when the host has a word: the first prompts
and waits at the READ's own address with memory unchanged, the second stores the word and advances. -/
def Obligations.ReadTakesTwoSteps : Prop :=
  ∀ (s : State) (a : Operand) (w : Word) (ws : List Word),
    s.runState = .running → s.ic.toNat < 1000 → decode (fetchedWord s) = .ok (.read a) → a.toNat < 1000 →
    s.answers = w :: ws → s.mem.wf = true →
    ∃ t u, step s = .next t ∧ t.runState = .waitInput ∧ t.inputPending = true ∧ t.ic = s.ic ∧
      t.mem = s.mem ∧ t.output = s.output ++ [.prompt] ∧
      step t = .next u ∧ u.runState = .running ∧ u.inputPending = false ∧ u.ic = s.ic + 1 ∧
      u.mem.read a.toNat = w ∧ SameMemoryBut a.toNat s u ∧ u.acc = s.acc ∧ u.ir = fetchedWord s ∧
      u.output = s.output ++ [.prompt] ∧ u.answers = ws

/-! ### Invariants -/

/-- 10_state.md R19 to R26, 20_memory.md R51, R52, 60_exceptions.md R102, R103: every step of the engine
keeps the invariant of the machine. -/
def Obligations.StepKeepsInv : Prop :=
  ∀ s t : State, s.Inv → step s = .next t → t.Inv

/-- 10_state.md R31: the reset state meets the invariant. -/
def Obligations.ResetSatisfiesInv : Prop := State.reset.Inv

/-- 20_memory.md R48: the host's transactions keep the invariant, whatever words the host will answer
with. -/
def Obligations.HostTransactionsKeepInv : Prop :=
  ∀ s t : State, s.Inv →
    ((∃ a w, hostPreload a w s = some t) ∨ hostStart s = some t ∨ (∃ w, hostAnswer w s = some t) ∨
      hostReset s = t ∨ ∃ ws, t = { s with answers := ws }) → t.Inv

/-- Every state of every run, with any program, any preload and any words of the host, meets the invariant:
among others IC is an address of the memory while a READ waits, the fields of IR are in OPC and OPR, and the
last events of an aborted run are the dump of its final state and the fatal event. -/
def Obligations.ReachableStatesSatisfyInv : Prop :=
  ∀ s : State, Reachable s → s.Inv

/-- 10_state.md R19, R21, 40_cycle.md R65, R71, 90_conflicts.md C8: until the run has ended IC is an address of
the memory, but for the RUNNING state that the advance at address 999 leaves, whose one step ends the run HALTED
with all else as it was; no READ waits there, and no other step leads there. That this state is RUNNING and not
yet HALTED is read from R65 and R71 (log 9, DEDUCED). -/
def Obligations.CounterIsAnAddressUntilTheEnd : Prop :=
  ∀ s : State, s.Inv →
    (s.runState ≠ .halted → s.ic.toNat ≤ 999 ∨ (s.runState = .running ∧ s.ic.toNat = 1000 ∧
      step s = .next { s with runState := .halted, exitCode := some 0 })) ∧
    (s.runState = .waitInput → s.ic.toNat ≤ 999) ∧
    (∀ t : State, step s = .next t → t.runState = .running → t.ic.toNat = 1000 →
      s.ic.toNat = 999 ∧ t.ic = s.ic + 1)

/-- 10_state.md R19, R21, 90_conflicts.md C8: once the end test of 40_cycle.md R65 has been made, IC is in 0 to
999 in RUNNING and in WAIT_INPUT, and IC = 1000 is found in HALTED only; that test is either no change at all or
the machine's own next step, so a run reaches the same end by either reading of the spec (that the test is a
step of its own is R65 and R71, log 9, DEDUCED); and the invariant holds there. -/
def Obligations.CounterInRangeOnceTheEndIsTested : Prop :=
  ∀ s : State, s.Inv →
    ((afterEndTest s).runState = .running ∨ (afterEndTest s).runState = .waitInput →
      (afterEndTest s).ic.toNat ≤ 999) ∧
    ((afterEndTest s).ic.toNat = 1000 → (afterEndTest s).runState = .halted) ∧
    (afterEndTest s = s ∨ step s = .next (afterEndTest s)) ∧
    (afterEndTest s).Inv

/-! ### Errors -/

/-- 60_exceptions.md R102, R103 (precise errors; IC kept is 92_eei_decisions.md D5, Dump before Fatal is D21,
the spec's own choices): a step that ends in ABORTED(k) leaves the state of R102 with IR, OPC and OPR of the
fetched word and everything else as before. -/
def Obligations.ErrorsArePrecise : Prop :=
  ∀ (s t : State) (k : ErrorKind), step s = .next t → t.runState = .aborted k →
    ∃ code, t = afterError (afterFetch s) k code ∧ SameMemory s t ∧ t.acc = s.acc ∧ t.ic = s.ic

/-- 60_exceptions.md R97, R100 (the order is 92_eei_decisions.md D9, the spec's own choice): exactly when a
cycle ends in each of the four errors, by the fetched word, ACC and the memory operand. -/
def Obligations.EachErrorExactlyWhen : Prop :=
  ∀ s t : State, s.runState = .running → s.ic.toNat < 1000 → step s = .next t →
    (t.runState = .aborted .invalidOpcode ↔ InvalidOpcodeValue ((fetchedWord s).toNat / 4096)) ∧
    (t.runState = .aborted .addressOutOfRange ↔
      ∃ i, decode (fetchedWord s) = .ok i ∧ i.kind ≠ .ignored ∧ 1000 ≤ i.operand.toNat) ∧
    (t.runState = .aborted .divideByZero ↔
      ∃ a : Operand, decode (fetchedWord s) = .ok (.divide a) ∧ a.toNat < 1000 ∧
        (s.mem.read a.toNat).toNat = 0) ∧
    (t.runState = .aborted .accumulatorOverflow ↔
      ∃ a : Operand, a.toNat < 1000 ∧
        ((decode (fetchedWord s) = .ok (.add a) ∧ 0xFFFFF < s.acc.toNat + (s.mem.read a.toNat).toNat) ∨
         (decode (fetchedWord s) = .ok (.subtract a) ∧ s.acc.toNat < (s.mem.read a.toNat).toNat) ∨
         (decode (fetchedWord s) = .ok (.multiply a) ∧
           0xFFFFF < s.acc.toNat * (s.mem.read a.toNat).toNat)))

/-! ### Frames -/

/-- 10_state.md R22: IR is written only by the fetch, with the word at IC; the execution of the instruction
does not change it, whatever it stores, and neither do the second step of READ and the host. -/
def Obligations.InstructionRegisterWrittenOnlyByFetch : Prop :=
  (∀ (i : Instr) (s t : State), exec i s = .next t → t.ir = s.ir) ∧
  (∀ s t : State, step s = .next t →
    (s.runState = .running → s.ic.toNat < 1000 → t.ir = s.mem.read s.ic.toNat) ∧
    (¬(s.runState = .running ∧ s.ic.toNat < 1000) → t.ir = s.ir)) ∧
  (∀ s t : State, ((∃ a w, hostPreload a w s = some t) ∨ hostStart s = some t ∨ ∃ w, hostAnswer w s = some t) →
    t.ir = s.ir)

/-- 10_state.md R30: memory is written only by the host's preload before the run, by STORE and by READ: a
word that differs after a step is at the operand of a STORE, and is ACC, or at OPR of a waiting READ, and is
the host's word; the host changes one only by a preload. -/
def Obligations.MemoryWrittenOnlyByStoreReadAndPreload : Prop :=
  (∀ (s t : State) (b : Nat), s.mem.wf = true → step s = .next t → t.mem.read b ≠ s.mem.read b →
    (s.runState = .running ∧
      ∃ a : Operand, decode (fetchedWord s) = .ok (.store a) ∧ b = a.toNat ∧ t.mem.read b = s.acc) ∨
    (s.runState = .waitInput ∧ b = s.opr.toNat ∧ s.answers.head? = some (t.mem.read b))) ∧
  (∀ (s t : State) (a : Nat) (w : Word), hostPreload a w s = some t →
    s.runState = .notStarted ∧ SameMemoryBut a s t) ∧
  (∀ s t : State, (hostStart s = some t ∨ ∃ w, hostAnswer w s = some t) → SameMemory s t)

/-- 10_state.md R15, R17: ACC changes only in a cycle that runs LOAD, ADD, SUBTRACT, DIVIDE or MULTIPLY. -/
def Obligations.AccumulatorWrittenOnlyByLoadAndArithmetic : Prop :=
  ∀ s t : State, step s = .next t → t.acc ≠ s.acc →
    s.runState = .running ∧ ∃ a : Operand, a.toNat < 1000 ∧
      (decode (fetchedWord s) = .ok (.load a) ∨ decode (fetchedWord s) = .ok (.add a) ∨
       decode (fetchedWord s) = .ok (.subtract a) ∨ decode (fetchedWord s) = .ok (.divide a) ∨
       decode (fetchedWord s) = .ok (.multiply a))

/-- 10_state.md R20, R21 (IC kept by an instruction that ends the run is 92_eei_decisions.md D5, the spec's
own choice): how a step moves IC: it advances by one, or takes the target of a BRANCH or of a BRANCHZERO
with ACC = 0; a step that ends the run or starts a wait leaves it. -/
def Obligations.CounterChangesOnlyAsStated : Prop :=
  ∀ s t : State, step s = .next t →
    (t.runState = .running →
      t.ic = s.ic + 1 ∨
      (s.runState = .running ∧ ∃ a : Operand, a.toNat < 1000 ∧ t.ic.toNat = a.toNat ∧
        (decode (fetchedWord s) = .ok (.branch a) ∨
          (decode (fetchedWord s) = .ok (.branchzero a) ∧ s.acc = 0)))) ∧
    (t.runState ≠ .running → t.ic = s.ic)

/-- 43_arithmetic.md R83, R86 to R89, 42_load_store.md R81: LOAD, ADD, SUBTRACT, DIVIDE and MULTIPLY change
no word of memory, no register but ACC and IC, and nothing of the input channel; when they advance, they
change neither the output nor the run state nor the exit code. -/
def Obligations.LoadAndArithmeticFrame : Prop :=
  ∀ (i : Instr) (a : Operand) (s t : State),
    (i = .load a ∨ i = .add a ∨ i = .subtract a ∨ i = .divide a ∨ i = .multiply a) → exec i s = .next t →
    SameMemory s t ∧ t.ir = s.ir ∧ t.opc = s.opc ∧ t.opr = s.opr ∧
    t.inputPending = s.inputPending ∧ t.inputRequests = s.inputRequests ∧ t.answers = s.answers ∧
    (t.ic ≠ s.ic → t.output = s.output ∧ t.runState = s.runState ∧ t.exitCode = s.exitCode) ∧
    (t.ic = s.ic → t.acc = s.acc)

/-- 41_io.md R77 to R79, 44_control.md R91 to R94, 45_termination.md R95, R96: READ's first step, WRITE,
NEWLINE, the branches, HALT and TERMINATE change no word of memory, not ACC, IR, OPC or OPR; but for READ
they change nothing of the input channel; READ, HALT and TERMINATE leave IC; when IC changes, the run state
and the exit code do not, and a branch then emits nothing. -/
def Obligations.IoBranchAndEndFrame : Prop :=
  ∀ (i : Instr) (a : Operand) (s t : State),
    (i = .read a ∨ i = .write a ∨ i = .newline a ∨ i = .branch a ∨ i = .branchneg a ∨ i = .branchzero a ∨
      i = .halt a ∨ i = .terminate a) → exec i s = .next t →
    SameMemory s t ∧ t.acc = s.acc ∧ t.ir = s.ir ∧ t.opc = s.opc ∧ t.opr = s.opr ∧
    t.answers = s.answers ∧
    (i ≠ .read a → t.inputPending = s.inputPending ∧ t.inputRequests = s.inputRequests) ∧
    ((i = .read a ∨ i = .halt a ∨ i = .terminate a) → t.ic = s.ic) ∧
    (t.ic ≠ s.ic → t.runState = s.runState ∧ t.exitCode = s.exitCode) ∧
    (t.ic ≠ s.ic → (i = .branch a ∨ i = .branchneg a ∨ i = .branchzero a) → t.output = s.output)

/-- 42_load_store.md R82, R80: STORE changes no word of memory but the one at its operand, and none when the
operand is no address; it changes no register but IC and nothing of the input channel, and when it advances
neither the output nor the run state nor the exit code. -/
def Obligations.StoreFrame : Prop :=
  ∀ (a : Operand) (s t : State), exec (.store a) s = .next t →
    (∀ d : Nat, a.toNat = d → SameMemoryBut d s t) ∧ (1000 ≤ a.toNat → SameMemory s t) ∧
    t.acc = s.acc ∧ t.ir = s.ir ∧ t.opc = s.opc ∧ t.opr = s.opr ∧
    t.inputPending = s.inputPending ∧ t.inputRequests = s.inputRequests ∧ t.answers = s.answers ∧
    (a.toNat < 1000 → t.output = s.output ∧ t.runState = s.runState ∧ t.exitCode = s.exitCode)

/-- 41_io.md R77: the second step of READ changes no word of memory but the one at OPR, no register but IC,
and no event, request count or exit code. -/
def Obligations.ReadSecondStepFrame : Prop :=
  ∀ s t : State, s.runState = .waitInput → step s = .next t →
    (∀ d : Nat, s.opr.toNat = d → SameMemoryBut d s t) ∧
    t.acc = s.acc ∧ t.ir = s.ir ∧ t.opc = s.opc ∧ t.opr = s.opr ∧ t.output = s.output ∧
    t.inputRequests = s.inputRequests ∧ t.exitCode = s.exitCode

/-- 20_memory.md R52 (the form of the events is 92_eei_decisions.md D13, the spec's own choice): a step only
appends to the output, and what it appends is nothing, or the events of R52's table by their emitter. -/
def Obligations.EventsOfOneStep : Prop :=
  ∀ s t : State, step s = .next t → ∃ es, t.output = s.output ++ es ∧
    (es = [] ∨
     (s.runState = .running ∧
      ((es = [.prompt] ∧ ∃ a, decode (fetchedWord s) = .ok (.read a)) ∨
       (∃ a : Operand, es = [.write a (s.mem.read a.toNat)] ∧ decode (fetchedWord s) = .ok (.write a)) ∨
       (es = [.newline] ∧ ∃ x, decode (fetchedWord s) = .ok (.newline x)) ∨
       (es = [.haltMessage, dumpEvent (afterFetch s)] ∧ ∃ x, decode (fetchedWord s) = .ok (.halt x)) ∨
       (∃ k, es = [dumpEvent (afterFetch s), .fatal k] ∧ t.runState = .aborted k))))

/-! ### What a step depends on -/

/-- 20_memory.md R48, R51, 40_cycle.md R75: the words the host has not been asked for do not matter: outside
WAIT_INPUT a step is the same whatever they are, and leaves them. -/
def Obligations.StepIgnoresUnrequestedWords : Prop :=
  ∀ (s : State) (ws : List Word), s.runState ≠ .waitInput →
    step { s with answers := ws } = mapNext (fun t => { t with answers := ws }) (step s)

/-- 10_state.md R22, R23, R32: what IR, OPC and OPR held before a fetch does not matter. -/
def Obligations.StepIgnoresOldFetchedFields : Prop :=
  ∀ (s : State) (x y z : Word), s.runState = .running → s.ic.toNat < 1000 →
    step { s with ir := x, opc := y, opr := z } = step s

/-- 20_memory.md R48, R52: the output is only appended to and never read: with any events in front, a step
does the same and keeps them in front. -/
def Obligations.StepNeverReadsOutput : Prop :=
  ∀ (s : State) (es : List Event),
    step { s with output := es ++ s.output } = mapNext (fun t => { t with output := es ++ t.output }) (step s)

/-- 20_memory.md R46, 70_reset_and_hazards.md R119: a word stored over the next instruction is the word the
very next step fetches. -/
def Obligations.StoredWordIsFetchedNext : Prop :=
  ∀ (s : State) (a : Operand), s.runState = .running → s.ic.toNat < 999 → s.mem.wf = true →
    decode (fetchedWord s) = .ok (.store a) → a.toNat = s.ic.toNat + 1 →
    ∃ t u, step s = .next t ∧ t.ic.toNat = a.toNat ∧ t.ir = fetchedWord s ∧
      step t = .next u ∧ u.ir = s.acc

/-! ### Input and output -/

/-- 41_io.md R77, 20_memory.md R48, R51 (the input channel is 92_eei_decisions.md D12 and D15, the spec's own
choices): READ prompts, requests one word and waits with IC kept; while it waits with no word to come, the host
may answer with any one word `w`, which puts `w` in `answers` and changes nothing else; when it does not wait,
the host cannot answer; the second step takes the first word of `answers`, stores it at OPR, runs again and
advances. The field `answers` (log 5), and none where the host may not act (log 17), are the model's choices. -/
def Obligations.ReadWaitsThenStoresTheWord : Prop :=
  (∀ (a : Operand) (s : State),
    decode (BitVec.ofNat 20 (0x10 * 0x1000 + a.toNat)) = .ok (.read a) ∧
    (1000 ≤ a.toNat → exec (.read a) s = .next (afterError s .addressOutOfRange Config.oorExitCode)) ∧
    (a.toNat < 1000 → exec (.read a) s = .next
      { s with
        output := s.output ++ [.prompt]
        runState := .waitInput
        inputPending := true
        inputRequests := s.inputRequests + 1 })) ∧
  (∀ (s : State) (w : Word), s.runState = .waitInput → s.answers = [] →
    hostAnswer w s = some { s with answers := [w] }) ∧
  (∀ (s : State) (w : Word), s.runState ≠ .waitInput → hostAnswer w s = none) ∧
  (∀ (s : State) (w : Word) (ws : List Word),
    s.runState = .waitInput → s.answers = w :: ws → s.opr.toNat < 1000 → s.mem.wf = true →
    ∃ t, step s = .next t ∧
      t = { s with
            mem := t.mem, ic := s.ic + 1, runState := .running, inputPending := false, answers := ws } ∧
      t.mem.read s.opr.toNat = w ∧ SameMemoryBut s.opr.toNat s t)

/-- 41_io.md R78: WRITE emits its operand and the word there, and advances. -/
def Obligations.WriteEmitsTheWord : Prop :=
  ∀ (a : Operand) (s : State),
    decode (BitVec.ofNat 20 (0x11 * 0x1000 + a.toNat)) = .ok (.write a) ∧
    (1000 ≤ a.toNat → exec (.write a) s = .next (afterError s .addressOutOfRange Config.oorExitCode)) ∧
    (a.toNat < 1000 → exec (.write a) s = .next
      { s with output := s.output ++ [.write a (s.mem.read a.toNat)], ic := s.ic + 1 })

/-- 41_io.md R79 (the ignored operand is 92_eei_decisions.md D8, the spec's own choice): NEWLINE emits a line
break and advances, whatever its operand field. -/
def Obligations.NewlineEmitsALineBreak : Prop :=
  ∀ (x : Operand) (s : State),
    decode (BitVec.ofNat 20 (0x13 * 0x1000 + x.toNat)) = .ok (.newline x) ∧
    exec (.newline x) s = .next { s with output := s.output ++ [.newline], ic := s.ic + 1 }

/-! ### Load and store -/

/-- 42_load_store.md R81: LOAD copies the word at its operand into ACC and advances. -/
def Obligations.LoadCopiesTheWord : Prop :=
  ∀ (a : Operand) (s : State),
    decode (BitVec.ofNat 20 (0x20 * 0x1000 + a.toNat)) = .ok (.load a) ∧
    (1000 ≤ a.toNat → exec (.load a) s = .next (afterError s .addressOutOfRange Config.oorExitCode)) ∧
    (a.toNat < 1000 → exec (.load a) s = .next { s with acc := s.mem.read a.toNat, ic := s.ic + 1 })

/-- 42_load_store.md R82: STORE puts ACC at its operand and nowhere else, advances, and changes nothing
else. -/
def Obligations.StoreCopiesTheAccumulator : Prop :=
  ∀ (a : Operand) (s : State), s.mem.wf = true →
    decode (BitVec.ofNat 20 (0x21 * 0x1000 + a.toNat)) = .ok (.store a) ∧
    (1000 ≤ a.toNat → exec (.store a) s = .next (afterError s .addressOutOfRange Config.oorExitCode)) ∧
    (a.toNat < 1000 → ∃ t, exec (.store a) s = .next t ∧ t = { s with mem := t.mem, ic := s.ic + 1 } ∧
      t.mem.read a.toNat = s.acc ∧ SameMemoryBut a.toNat s t ∧ t.mem.wf = true)

/-! ### Arithmetic -/

/-- 43_arithmetic.md R86: ADD writes the exact sum and advances, or raises AccumulatorOverflow. -/
def Obligations.AddWritesTheExactSum : Prop :=
  ∀ (a : Operand) (s : State),
    decode (BitVec.ofNat 20 (0x30 * 0x1000 + a.toNat)) = .ok (.add a) ∧
    (1000 ≤ a.toNat → exec (.add a) s = .next (afterError s .addressOutOfRange Config.oorExitCode)) ∧
    (a.toNat < 1000 → s.acc.toNat + (s.mem.read a.toNat).toNat ≤ 0xFFFFF → exec (.add a) s = .next
      { s with acc := BitVec.ofNat 20 (s.acc.toNat + (s.mem.read a.toNat).toNat), ic := s.ic + 1 }) ∧
    (a.toNat < 1000 → 0xFFFFF < s.acc.toNat + (s.mem.read a.toNat).toNat →
      exec (.add a) s = .next (afterError s .accumulatorOverflow 4))

/-- 43_arithmetic.md R87: SUBTRACT writes the exact difference and advances, or raises AccumulatorOverflow
when it is negative. -/
def Obligations.SubtractWritesTheExactDifference : Prop :=
  ∀ (a : Operand) (s : State),
    decode (BitVec.ofNat 20 (0x31 * 0x1000 + a.toNat)) = .ok (.subtract a) ∧
    (1000 ≤ a.toNat → exec (.subtract a) s = .next (afterError s .addressOutOfRange Config.oorExitCode)) ∧
    (a.toNat < 1000 → (s.mem.read a.toNat).toNat ≤ s.acc.toNat → exec (.subtract a) s = .next
      { s with acc := BitVec.ofNat 20 (s.acc.toNat - (s.mem.read a.toNat).toNat), ic := s.ic + 1 }) ∧
    (a.toNat < 1000 → s.acc.toNat < (s.mem.read a.toNat).toNat →
      exec (.subtract a) s = .next (afterError s .accumulatorOverflow 4))

/-- 43_arithmetic.md R88: DIVIDE raises DivideByZero for a zero divisor, whatever ACC holds; otherwise it
writes the integer quotient and advances, never overflowing. -/
def Obligations.DivideWritesTheQuotient : Prop :=
  ∀ (a : Operand) (s : State),
    decode (BitVec.ofNat 20 (0x32 * 0x1000 + a.toNat)) = .ok (.divide a) ∧
    (1000 ≤ a.toNat → exec (.divide a) s = .next (afterError s .addressOutOfRange Config.oorExitCode)) ∧
    (a.toNat < 1000 → (s.mem.read a.toNat).toNat = 0 →
      exec (.divide a) s = .next (afterError s .divideByZero 2)) ∧
    (a.toNat < 1000 → (s.mem.read a.toNat).toNat ≠ 0 → exec (.divide a) s = .next
      { s with acc := BitVec.ofNat 20 (s.acc.toNat / (s.mem.read a.toNat).toNat), ic := s.ic + 1 })

/-- 43_arithmetic.md R89: MULTIPLY writes the exact product and advances, or raises AccumulatorOverflow; the
product is never reduced. -/
def Obligations.MultiplyWritesTheExactProduct : Prop :=
  ∀ (a : Operand) (s : State),
    decode (BitVec.ofNat 20 (0x33 * 0x1000 + a.toNat)) = .ok (.multiply a) ∧
    (1000 ≤ a.toNat → exec (.multiply a) s = .next (afterError s .addressOutOfRange Config.oorExitCode)) ∧
    (a.toNat < 1000 → s.acc.toNat * (s.mem.read a.toNat).toNat ≤ 0xFFFFF → exec (.multiply a) s = .next
      { s with acc := BitVec.ofNat 20 (s.acc.toNat * (s.mem.read a.toNat).toNat), ic := s.ic + 1 }) ∧
    (a.toNat < 1000 → 0xFFFFF < s.acc.toNat * (s.mem.read a.toNat).toNat →
      exec (.multiply a) s = .next (afterError s .accumulatorOverflow 4))

/-- 43_arithmetic.md R83: for ADD, SUBTRACT and MULTIPLY with the exact integer result `r`, ACC afterwards is
`r` when `r` is in [0, 0xFFFFF]; otherwise the run aborts with AccumulatorOverflow and nothing is written. -/
def Obligations.ExactResultOrOverflow : Prop :=
  ∀ (i : Instr) (a : Operand) (s : State) (r : Int), a.toNat < 1000 →
    ((i = .add a ∧ r = (s.acc.toNat : Int) + (s.mem.read a.toNat).toNat) ∨
     (i = .subtract a ∧ r = (s.acc.toNat : Int) - (s.mem.read a.toNat).toNat) ∨
     (i = .multiply a ∧ r = (s.acc.toNat : Int) * (s.mem.read a.toNat).toNat)) →
    (0 ≤ r ∧ r ≤ 0xFFFFF →
      ∃ t, exec i s = .next t ∧ (t.acc.toNat : Int) = r ∧ t = { s with acc := t.acc, ic := s.ic + 1 }) ∧
    (r < 0 ∨ 0xFFFFF < r → exec i s = .next (afterError s .accumulatorOverflow 4))

/-- 43_arithmetic.md R84: the quotient DIVIDE leaves in ACC is the one with a remainder below the divisor. -/
def Obligations.DivideLeavesAProperRemainder : Prop :=
  ∀ (a : Operand) (s : State), a.toNat < 1000 → (s.mem.read a.toNat).toNat ≠ 0 →
    ∃ t, exec (.divide a) s = .next t ∧
      t.acc.toNat * (s.mem.read a.toNat).toNat ≤ s.acc.toNat ∧
      s.acc.toNat < (t.acc.toNat + 1) * (s.mem.read a.toNat).toNat

/-! ### Control transfer and the end of a run -/

/-- 44_control.md R92: BRANCH sets IC to its operand and does not advance. -/
def Obligations.BranchSetsTheCounter : Prop :=
  ∀ (t : Operand) (s : State),
    decode (BitVec.ofNat 20 (0x40 * 0x1000 + t.toNat)) = .ok (.branch t) ∧
    (1000 ≤ t.toNat → exec (.branch t) s = .next (afterError s .addressOutOfRange Config.oorExitCode)) ∧
    (t.toNat < 1000 → exec (.branch t) s = .next { s with ic := BitVec.ofNat 20 t.toNat })

/-- 44_control.md R92 (its example), 40_cycle.md R66: in a run the word that the step after a BRANCH fetches is
the one at the branch's target, whatever stands there, the BRANCH itself included. -/
def Obligations.BranchTargetIsFetchedNext : Prop :=
  ∀ (s : State) (a : Operand), s.runState = .running → s.ic.toNat < 1000 →
    decode (fetchedWord s) = .ok (.branch a) → a.toNat < 1000 →
    ∃ t u, step s = .next t ∧ t.runState = .running ∧ t.ic.toNat = a.toNat ∧ SameMemory s t ∧
      t.acc = s.acc ∧ step t = .next u ∧ u.ir = s.mem.read a.toNat

/-- 44_control.md R93 (no word is negative: 92_eei_decisions.md D3, the spec's own choice): BRANCHNEG is never
taken and advances, whatever ACC holds. -/
def Obligations.BranchnegNeverTaken : Prop :=
  ∀ (t : Operand) (s : State),
    decode (BitVec.ofNat 20 (0x41 * 0x1000 + t.toNat)) = .ok (.branchneg t) ∧
    (1000 ≤ t.toNat → exec (.branchneg t) s = .next (afterError s .addressOutOfRange Config.oorExitCode)) ∧
    (t.toNat < 1000 → exec (.branchneg t) s = .next { s with ic := s.ic + 1 })

/-- 44_control.md R94: BRANCHZERO sets IC to its operand when ACC is 0, and advances otherwise. -/
def Obligations.BranchzeroTestsTheAccumulator : Prop :=
  ∀ (t : Operand) (s : State),
    decode (BitVec.ofNat 20 (0x42 * 0x1000 + t.toNat)) = .ok (.branchzero t) ∧
    (1000 ≤ t.toNat → exec (.branchzero t) s = .next (afterError s .addressOutOfRange Config.oorExitCode)) ∧
    (t.toNat < 1000 → s.acc = 0 → exec (.branchzero t) s = .next { s with ic := BitVec.ofNat 20 t.toNat }) ∧
    (t.toNat < 1000 → s.acc ≠ 0 → exec (.branchzero t) s = .next { s with ic := s.ic + 1 })

/-- 45_termination.md R95 (that HALT stops is 92_eei_decisions.md D4, that IC is kept D5, that the operand is
ignored D8, the spec's own choices): HALT emits its message and the dump, and ends the run HALTED with exit
code 0. -/
def Obligations.HaltDumpsAndStops : Prop :=
  ∀ (x : Operand) (s : State),
    decode (BitVec.ofNat 20 (0x43 * 0x1000 + x.toNat)) = .ok (.halt x) ∧
    exec (.halt x) s = .next
      { s with output := s.output ++ [.haltMessage, dumpEvent s], runState := .halted, exitCode := some 0 }

/-- 45_termination.md R96 (HALTED is 92_eei_decisions.md D19, IC kept D5, the ignored operand D8, the spec's own
choices): TERMINATE ends the run HALTED with exit code 0 and emits nothing. -/
def Obligations.TerminateStopsSilently : Prop :=
  ∀ (x : Operand) (s : State),
    decode (BitVec.ofNat 20 (0xFF * 0x1000 + x.toNat)) = .ok (.terminate x) ∧
    exec (.terminate x) s = .next { s with runState := .halted, exitCode := some 0 }

/-! ### Reset and the host -/

/-- 10_state.md R31, 70_reset_and_hazards.md R114: what reset leaves, from any state: the registers and every
memory word 0, no request, no event, no exit code, the run not started (the last four are
92_eei_decisions.md D12 to D15, reset in any run state D22, the spec's own choices). -/
def Obligations.ResetLeavesTheStatedValues : Prop :=
  ∀ s : State,
    (hostReset s).acc = 0 ∧ (hostReset s).ic = 0 ∧ (hostReset s).ir = 0 ∧ (hostReset s).opc = 0 ∧
    (hostReset s).opr = 0 ∧ (∀ a : Nat, (hostReset s).mem.read a = 0) ∧
    (hostReset s).runState = .notStarted ∧ (hostReset s).exitCode = none ∧
    (hostReset s).inputPending = false ∧ (hostReset s).output = []

/-- 20_memory.md R49, 70_reset_and_hazards.md R115 (the window is 92_eei_decisions.md D14, the spec's own choice): before
the start the host may write any word at any address, which changes that word and nothing else; after the
start it may not. -/
def Obligations.PreloadWritesOneWordBeforeStart : Prop :=
  ∀ (a : Nat) (w : Word) (s : State), s.mem.wf = true →
    (s.runState = .notStarted → a < 1000 →
      ∃ t, hostPreload a w s = some t ∧ t = { s with mem := t.mem } ∧ t.mem.read a = w ∧
        SameMemoryBut a s t ∧ t.mem.wf = true) ∧
    (s.runState ≠ .notStarted → hostPreload a w s = none)

/-- 70_reset_and_hazards.md R116, R117: start makes a run that was not started RUNNING, once; from a preloaded memory
with IC = 0 the first step fetches the word at address 0. -/
def Obligations.StartRunsFromAddressZero : Prop :=
  ∀ s : State, s.runState = .notStarted → s.ic = 0 →
    ∃ t u, hostStart s = some t ∧ t = { s with runState := .running } ∧ hostStart t = none ∧
      step t = .next u ∧ u.ir = s.mem.read 0

/-- 70_reset_and_hazards.md R117, 95_test_vectors.md RS-2: a start with no preload ends at once with
ABORTED(InvalidOpcode), exit code 3, IC = 0, and the events Dump and Fatal. -/
def Obligations.StartWithNoPreloadAborts : Prop :=
  ∃ t u, hostStart State.reset = some t ∧ step t = .next u ∧ u.runState = .aborted .invalidOpcode ∧
    u.exitCode = some 3 ∧ u.ic = 0 ∧
    u.output = [.dump { acc := 0, ic := 0, ir := 0, opc := 0, opr := 0, mem := [] }, .fatal .invalidOpcode]
end

