-- ==== Sys2Proof/Laws/Decode.lean ====
section
/-! SUPPORT. The fields of a word (30_encoding.md R56) and what the encoder puts into them. -/

namespace Sys2Proof

@[simp] theorem opcodeField_wordOf (o : Opcode) (a : Operand) : opcodeField (wordOf o a) = o :=
  BitVec.extractLsb'_append_eq_left

@[simp] theorem operandField_wordOf (o : Opcode) (a : Operand) : operandField (wordOf o a) = a :=
  BitVec.extractLsb'_append_eq_right

/-- opcode = word div 4096 (R56). -/
theorem opcodeField_toNat (w : Word) : (opcodeField w).toNat = w.toNat / 4096 := by
  have h := w.isLt
  simp only [opcodeField, BitVec.extractLsb'_toNat, Nat.shiftRight_eq_div_pow]
  omega

/-- operand = word mod 4096 (R56). -/
theorem operandField_toNat (w : Word) : (operandField w).toNat = w.toNat % 4096 := by
  simp [operandField, BitVec.extractLsb'_toNat]

/-- word = opcode * 0x1000 + operand (R56). -/
theorem wordOf_toNat (o : Opcode) (a : Operand) : (wordOf o a).toNat = o.toNat * 4096 + a.toNat := by
  have h := opcodeField_toNat (wordOf o a)
  have h' := operandField_toNat (wordOf o a)
  simp only [opcodeField_wordOf, operandField_wordOf] at h h'
  omega

/-- A word is made of its two fields. -/
theorem wordOf_fields (w : Word) : wordOf (opcodeField w) (operandField w) = w := by
  apply BitVec.eq_of_toNat_eq
  rw [wordOf_toNat, opcodeField_toNat, operandField_toNat]
  omega

/-- The field of the opcode, zero-extended as the decode does (40_cycle.md R67), by division. -/
theorem opcodeField_extended (w : Word) :
    (opcodeField w).setWidth 20 = BitVec.ofNat 20 (w.toNat / 4096) := by
  apply BitVec.eq_of_toNat_eq
  simp [opcodeField_toNat]

/-- The field of the operand, zero-extended as the decode does (40_cycle.md R67), by remainder. -/
theorem operandField_extended (w : Word) :
    (operandField w).setWidth 20 = BitVec.ofNat 20 (w.toNat % 4096) := by
  apply BitVec.eq_of_toNat_eq
  simp [operandField_toNat]

end Sys2Proof
end

