-- ==== Sys2Proof/Laws/State.lean ====
section
/-! SUPPORT. What each update of the state leaves in each field: one lemma per field and update, so that no
later proof unfolds a record update. -/

namespace Sys2Proof.Machine

variable (s : State)

/-! ### Writing a register -/

@[simp] theorem set_acc_acc (v : Word) : (s.set .acc v).acc = v := rfl
@[simp] theorem set_acc_ic (v : Word) : (s.set .acc v).ic = s.ic := rfl
@[simp] theorem set_acc_ir (v : Word) : (s.set .acc v).ir = s.ir := rfl
@[simp] theorem set_acc_opc (v : Word) : (s.set .acc v).opc = s.opc := rfl
@[simp] theorem set_acc_opr (v : Word) : (s.set .acc v).opr = s.opr := rfl
@[simp] theorem set_ic_acc (v : Word) : (s.set .ic v).acc = s.acc := rfl
@[simp] theorem set_ic_ic (v : Word) : (s.set .ic v).ic = v := rfl
@[simp] theorem set_ic_ir (v : Word) : (s.set .ic v).ir = s.ir := rfl
@[simp] theorem set_ic_opc (v : Word) : (s.set .ic v).opc = s.opc := rfl
@[simp] theorem set_ic_opr (v : Word) : (s.set .ic v).opr = s.opr := rfl
@[simp] theorem set_ir_acc (v : Word) : (s.set .ir v).acc = s.acc := rfl
@[simp] theorem set_ir_ic (v : Word) : (s.set .ir v).ic = s.ic := rfl
@[simp] theorem set_ir_ir (v : Word) : (s.set .ir v).ir = v := rfl
@[simp] theorem set_ir_opc (v : Word) : (s.set .ir v).opc = s.opc := rfl
@[simp] theorem set_ir_opr (v : Word) : (s.set .ir v).opr = s.opr := rfl
@[simp] theorem set_opc_acc (v : Word) : (s.set .opc v).acc = s.acc := rfl
@[simp] theorem set_opc_ic (v : Word) : (s.set .opc v).ic = s.ic := rfl
@[simp] theorem set_opc_ir (v : Word) : (s.set .opc v).ir = s.ir := rfl
@[simp] theorem set_opc_opc (v : Word) : (s.set .opc v).opc = v := rfl
@[simp] theorem set_opc_opr (v : Word) : (s.set .opc v).opr = s.opr := rfl
@[simp] theorem set_opr_acc (v : Word) : (s.set .opr v).acc = s.acc := rfl
@[simp] theorem set_opr_ic (v : Word) : (s.set .opr v).ic = s.ic := rfl
@[simp] theorem set_opr_ir (v : Word) : (s.set .opr v).ir = s.ir := rfl
@[simp] theorem set_opr_opc (v : Word) : (s.set .opr v).opc = s.opc := rfl
@[simp] theorem set_opr_opr (v : Word) : (s.set .opr v).opr = v := rfl
@[simp] theorem set_mem (r : Reg) (v : Word) : (s.set r v).mem = s.mem := by cases r <;> rfl
@[simp] theorem set_runState (r : Reg) (v : Word) : (s.set r v).runState = s.runState := by cases r <;> rfl
@[simp] theorem set_exitCode (r : Reg) (v : Word) : (s.set r v).exitCode = s.exitCode := by cases r <;> rfl
@[simp] theorem set_inputPending (r : Reg) (v : Word) : (s.set r v).inputPending = s.inputPending := by cases r <;> rfl
@[simp] theorem set_inputRequests (r : Reg) (v : Word) : (s.set r v).inputRequests = s.inputRequests := by cases r <;> rfl
@[simp] theorem set_output (r : Reg) (v : Word) : (s.set r v).output = s.output := by cases r <;> rfl
@[simp] theorem set_answers (r : Reg) (v : Word) : (s.set r v).answers = s.answers := by cases r <;> rfl

/-! ### Reading a register -/

@[simp] theorem get_acc : s.get .acc = s.acc := rfl
@[simp] theorem get_ic : s.get .ic = s.ic := rfl
@[simp] theorem get_ir : s.get .ir = s.ir := rfl
@[simp] theorem get_opc : s.get .opc = s.opc := rfl
@[simp] theorem get_opr : s.get .opr = s.opr := rfl

/-- A register reads as last written, and the others as before. -/
theorem get_set (r q : Reg) (v : Word) : (s.set r v).get q = if q = r then v else s.get q := by
  cases r <;> cases q <;> rfl

/-! ### Writing memory -/

@[simp] theorem store_acc (a : Nat) (v : Word) : (s.store a v).acc = s.acc := rfl
@[simp] theorem store_ic (a : Nat) (v : Word) : (s.store a v).ic = s.ic := rfl
@[simp] theorem store_ir (a : Nat) (v : Word) : (s.store a v).ir = s.ir := rfl
@[simp] theorem store_opc (a : Nat) (v : Word) : (s.store a v).opc = s.opc := rfl
@[simp] theorem store_opr (a : Nat) (v : Word) : (s.store a v).opr = s.opr := rfl
@[simp] theorem store_mem (a : Nat) (v : Word) : (s.store a v).mem = s.mem.write a v := rfl
@[simp] theorem store_runState (a : Nat) (v : Word) : (s.store a v).runState = s.runState := rfl
@[simp] theorem store_exitCode (a : Nat) (v : Word) : (s.store a v).exitCode = s.exitCode := rfl
@[simp] theorem store_inputPending (a : Nat) (v : Word) : (s.store a v).inputPending = s.inputPending := rfl
@[simp] theorem store_inputRequests (a : Nat) (v : Word) :
    (s.store a v).inputRequests = s.inputRequests := rfl
@[simp] theorem store_output (a : Nat) (v : Word) : (s.store a v).output = s.output := rfl
@[simp] theorem store_answers (a : Nat) (v : Word) : (s.store a v).answers = s.answers := rfl

/-! ### Emitting an event -/

@[simp] theorem emit_acc (e : Event) : (emit e s).acc = s.acc := rfl
@[simp] theorem emit_ic (e : Event) : (emit e s).ic = s.ic := rfl
@[simp] theorem emit_ir (e : Event) : (emit e s).ir = s.ir := rfl
@[simp] theorem emit_opc (e : Event) : (emit e s).opc = s.opc := rfl
@[simp] theorem emit_opr (e : Event) : (emit e s).opr = s.opr := rfl
@[simp] theorem emit_mem (e : Event) : (emit e s).mem = s.mem := rfl
@[simp] theorem emit_runState (e : Event) : (emit e s).runState = s.runState := rfl
@[simp] theorem emit_exitCode (e : Event) : (emit e s).exitCode = s.exitCode := rfl
@[simp] theorem emit_inputPending (e : Event) : (emit e s).inputPending = s.inputPending := rfl
@[simp] theorem emit_inputRequests (e : Event) : (emit e s).inputRequests = s.inputRequests := rfl
@[simp] theorem emit_output (e : Event) : (emit e s).output = s.output ++ [e] := rfl
@[simp] theorem emit_answers (e : Event) : (emit e s).answers = s.answers := rfl

/-! ### Requesting a word -/

@[simp] theorem requestInput_acc : (requestInput s).acc = s.acc := rfl
@[simp] theorem requestInput_ic : (requestInput s).ic = s.ic := rfl
@[simp] theorem requestInput_ir : (requestInput s).ir = s.ir := rfl
@[simp] theorem requestInput_opc : (requestInput s).opc = s.opc := rfl
@[simp] theorem requestInput_opr : (requestInput s).opr = s.opr := rfl
@[simp] theorem requestInput_mem : (requestInput s).mem = s.mem := rfl
@[simp] theorem requestInput_runState : (requestInput s).runState = .waitInput := rfl
@[simp] theorem requestInput_exitCode : (requestInput s).exitCode = s.exitCode := rfl
@[simp] theorem requestInput_inputPending : (requestInput s).inputPending = true := rfl
@[simp] theorem requestInput_inputRequests : (requestInput s).inputRequests = s.inputRequests + 1 := rfl
@[simp] theorem requestInput_output : (requestInput s).output = s.output := rfl
@[simp] theorem requestInput_answers : (requestInput s).answers = s.answers := rfl

/-! ### Accepting a word -/

@[simp] theorem acceptInput_acc (ws : List Word) : (acceptInput ws s).acc = s.acc := rfl
@[simp] theorem acceptInput_ic (ws : List Word) : (acceptInput ws s).ic = s.ic := rfl
@[simp] theorem acceptInput_ir (ws : List Word) : (acceptInput ws s).ir = s.ir := rfl
@[simp] theorem acceptInput_opc (ws : List Word) : (acceptInput ws s).opc = s.opc := rfl
@[simp] theorem acceptInput_opr (ws : List Word) : (acceptInput ws s).opr = s.opr := rfl
@[simp] theorem acceptInput_mem (ws : List Word) : (acceptInput ws s).mem = s.mem := rfl
@[simp] theorem acceptInput_runState (ws : List Word) : (acceptInput ws s).runState = .running := rfl
@[simp] theorem acceptInput_exitCode (ws : List Word) : (acceptInput ws s).exitCode = s.exitCode := rfl
@[simp] theorem acceptInput_inputPending (ws : List Word) : (acceptInput ws s).inputPending = false := rfl
@[simp] theorem acceptInput_inputRequests (ws : List Word) :
    (acceptInput ws s).inputRequests = s.inputRequests := rfl
@[simp] theorem acceptInput_output (ws : List Word) : (acceptInput ws s).output = s.output := rfl
@[simp] theorem acceptInput_answers (ws : List Word) : (acceptInput ws s).answers = ws := rfl

/-! ### Advancing -/

@[simp] theorem advance_acc : (advance s).acc = s.acc := rfl
@[simp] theorem advance_ic : (advance s).ic = s.ic + 1 := rfl
@[simp] theorem advance_ir : (advance s).ir = s.ir := rfl
@[simp] theorem advance_opc : (advance s).opc = s.opc := rfl
@[simp] theorem advance_opr : (advance s).opr = s.opr := rfl
@[simp] theorem advance_mem : (advance s).mem = s.mem := rfl
@[simp] theorem advance_runState : (advance s).runState = s.runState := rfl
@[simp] theorem advance_exitCode : (advance s).exitCode = s.exitCode := rfl
@[simp] theorem advance_inputPending : (advance s).inputPending = s.inputPending := rfl
@[simp] theorem advance_inputRequests : (advance s).inputRequests = s.inputRequests := rfl
@[simp] theorem advance_output : (advance s).output = s.output := rfl
@[simp] theorem advance_answers : (advance s).answers = s.answers := rfl

/-! ### Jumping -/

@[simp] theorem jump_acc (t : Operand) : (jump t s).acc = s.acc := rfl
@[simp] theorem jump_ic (t : Operand) : (jump t s).ic = t.setWidth 20 := rfl
@[simp] theorem jump_ir (t : Operand) : (jump t s).ir = s.ir := rfl
@[simp] theorem jump_opc (t : Operand) : (jump t s).opc = s.opc := rfl
@[simp] theorem jump_opr (t : Operand) : (jump t s).opr = s.opr := rfl
@[simp] theorem jump_mem (t : Operand) : (jump t s).mem = s.mem := rfl
@[simp] theorem jump_runState (t : Operand) : (jump t s).runState = s.runState := rfl
@[simp] theorem jump_exitCode (t : Operand) : (jump t s).exitCode = s.exitCode := rfl
@[simp] theorem jump_inputPending (t : Operand) : (jump t s).inputPending = s.inputPending := rfl
@[simp] theorem jump_inputRequests (t : Operand) : (jump t s).inputRequests = s.inputRequests := rfl
@[simp] theorem jump_output (t : Operand) : (jump t s).output = s.output := rfl
@[simp] theorem jump_answers (t : Operand) : (jump t s).answers = s.answers := rfl

/-! ### Fetching -/

@[simp] theorem fetchWord_acc : (fetchWord s).acc = s.acc := rfl
@[simp] theorem fetchWord_ic : (fetchWord s).ic = s.ic := rfl
@[simp] theorem fetchWord_ir : (fetchWord s).ir = s.mem.read s.ic.toNat := rfl
@[simp] theorem fetchWord_opc : (fetchWord s).opc = s.opc := rfl
@[simp] theorem fetchWord_opr : (fetchWord s).opr = s.opr := rfl
@[simp] theorem fetchWord_mem : (fetchWord s).mem = s.mem := rfl
@[simp] theorem fetchWord_runState : (fetchWord s).runState = s.runState := rfl
@[simp] theorem fetchWord_exitCode : (fetchWord s).exitCode = s.exitCode := rfl
@[simp] theorem fetchWord_inputPending : (fetchWord s).inputPending = s.inputPending := rfl
@[simp] theorem fetchWord_inputRequests : (fetchWord s).inputRequests = s.inputRequests := rfl
@[simp] theorem fetchWord_output : (fetchWord s).output = s.output := rfl
@[simp] theorem fetchWord_answers : (fetchWord s).answers = s.answers := rfl

/-! ### Decoding the fields -/

@[simp] theorem decodeFields_acc : (decodeFields s).acc = s.acc := rfl
@[simp] theorem decodeFields_ic : (decodeFields s).ic = s.ic := rfl
@[simp] theorem decodeFields_ir : (decodeFields s).ir = s.ir := rfl
@[simp] theorem decodeFields_opc : (decodeFields s).opc = (opcodeField s.ir).setWidth 20 := rfl
@[simp] theorem decodeFields_opr : (decodeFields s).opr = (operandField s.ir).setWidth 20 := rfl
@[simp] theorem decodeFields_mem : (decodeFields s).mem = s.mem := rfl
@[simp] theorem decodeFields_runState : (decodeFields s).runState = s.runState := rfl
@[simp] theorem decodeFields_exitCode : (decodeFields s).exitCode = s.exitCode := rfl
@[simp] theorem decodeFields_inputPending : (decodeFields s).inputPending = s.inputPending := rfl
@[simp] theorem decodeFields_inputRequests : (decodeFields s).inputRequests = s.inputRequests := rfl
@[simp] theorem decodeFields_output : (decodeFields s).output = s.output := rfl
@[simp] theorem decodeFields_answers : (decodeFields s).answers = s.answers := rfl

/-! ### Finishing -/

@[simp] theorem finish_acc : (finish s).acc = s.acc := rfl
@[simp] theorem finish_ic : (finish s).ic = s.ic := rfl
@[simp] theorem finish_ir : (finish s).ir = s.ir := rfl
@[simp] theorem finish_opc : (finish s).opc = s.opc := rfl
@[simp] theorem finish_opr : (finish s).opr = s.opr := rfl
@[simp] theorem finish_mem : (finish s).mem = s.mem := rfl
@[simp] theorem finish_runState : (finish s).runState = .halted := rfl
@[simp] theorem finish_exitCode : (finish s).exitCode = some 0 := rfl
@[simp] theorem finish_inputPending : (finish s).inputPending = s.inputPending := rfl
@[simp] theorem finish_inputRequests : (finish s).inputRequests = s.inputRequests := rfl
@[simp] theorem finish_output : (finish s).output = s.output := rfl
@[simp] theorem finish_answers : (finish s).answers = s.answers := rfl

/-! ### Placing a word -/

@[simp] theorem placeWord_acc (w : Word) : (placeWord s w).acc = s.acc := rfl
@[simp] theorem placeWord_ic (w : Word) : (placeWord s w).ic = fetchSlot s := rfl
@[simp] theorem placeWord_ir (w : Word) : (placeWord s w).ir = s.ir := rfl
@[simp] theorem placeWord_opc (w : Word) : (placeWord s w).opc = s.opc := rfl
@[simp] theorem placeWord_opr (w : Word) : (placeWord s w).opr = s.opr := rfl
@[simp] theorem placeWord_mem (w : Word) : (placeWord s w).mem = s.mem.write (fetchSlot s).toNat w := rfl
@[simp] theorem placeWord_runState (w : Word) : (placeWord s w).runState = .running := rfl
@[simp] theorem placeWord_exitCode (w : Word) : (placeWord s w).exitCode = none := rfl
@[simp] theorem placeWord_inputPending (w : Word) : (placeWord s w).inputPending = false := rfl
@[simp] theorem placeWord_inputRequests (w : Word) : (placeWord s w).inputRequests = s.inputRequests := rfl
@[simp] theorem placeWord_output (w : Word) : (placeWord s w).output = s.output := rfl
@[simp] theorem placeWord_answers (w : Word) : (placeWord s w).answers = s.answers := rfl

/-! ### The states of Safety.lean -/

@[simp] theorem afterFetch_acc : (afterFetch s).acc = s.acc := rfl
@[simp] theorem afterFetch_ic : (afterFetch s).ic = s.ic := rfl
@[simp] theorem afterFetch_ir : (afterFetch s).ir = fetchedWord s := rfl
theorem afterFetch_opc : (afterFetch s).opc = BitVec.ofNat 20 ((fetchedWord s).toNat / 4096) := rfl
theorem afterFetch_opr : (afterFetch s).opr = BitVec.ofNat 20 ((fetchedWord s).toNat % 4096) := rfl
@[simp] theorem afterFetch_mem : (afterFetch s).mem = s.mem := rfl
@[simp] theorem afterFetch_runState : (afterFetch s).runState = s.runState := rfl
@[simp] theorem afterFetch_exitCode : (afterFetch s).exitCode = s.exitCode := rfl
@[simp] theorem afterFetch_inputPending : (afterFetch s).inputPending = s.inputPending := rfl
@[simp] theorem afterFetch_inputRequests : (afterFetch s).inputRequests = s.inputRequests := rfl
@[simp] theorem afterFetch_output : (afterFetch s).output = s.output := rfl
@[simp] theorem afterFetch_answers : (afterFetch s).answers = s.answers := rfl

@[simp] theorem afterError_acc (k : ErrorKind) (c : Nat) : (afterError s k c).acc = s.acc := rfl
@[simp] theorem afterError_ic (k : ErrorKind) (c : Nat) : (afterError s k c).ic = s.ic := rfl
@[simp] theorem afterError_ir (k : ErrorKind) (c : Nat) : (afterError s k c).ir = s.ir := rfl
@[simp] theorem afterError_opc (k : ErrorKind) (c : Nat) : (afterError s k c).opc = s.opc := rfl
@[simp] theorem afterError_opr (k : ErrorKind) (c : Nat) : (afterError s k c).opr = s.opr := rfl
@[simp] theorem afterError_mem (k : ErrorKind) (c : Nat) : (afterError s k c).mem = s.mem := rfl
@[simp] theorem afterError_runState (k : ErrorKind) (c : Nat) :
    (afterError s k c).runState = .aborted k := rfl
@[simp] theorem afterError_exitCode (k : ErrorKind) (c : Nat) : (afterError s k c).exitCode = some c := rfl
@[simp] theorem afterError_inputPending (k : ErrorKind) (c : Nat) :
    (afterError s k c).inputPending = s.inputPending := rfl
@[simp] theorem afterError_inputRequests (k : ErrorKind) (c : Nat) :
    (afterError s k c).inputRequests = s.inputRequests := rfl
@[simp] theorem afterError_output (k : ErrorKind) (c : Nat) :
    (afterError s k c).output = s.output ++ [dumpEvent s, .fatal k] := rfl
@[simp] theorem afterError_answers (k : ErrorKind) (c : Nat) : (afterError s k c).answers = s.answers := rfl

/-! ### Raising an error -/

@[simp] theorem raise_acc (k : ErrorKind) : (raise k s).acc = s.acc := rfl
@[simp] theorem raise_ic (k : ErrorKind) : (raise k s).ic = s.ic := rfl
@[simp] theorem raise_ir (k : ErrorKind) : (raise k s).ir = s.ir := rfl
@[simp] theorem raise_opc (k : ErrorKind) : (raise k s).opc = s.opc := rfl
@[simp] theorem raise_opr (k : ErrorKind) : (raise k s).opr = s.opr := rfl
@[simp] theorem raise_mem (k : ErrorKind) : (raise k s).mem = s.mem := rfl
@[simp] theorem raise_runState (k : ErrorKind) : (raise k s).runState = .aborted k := rfl
@[simp] theorem raise_exitCode (k : ErrorKind) : (raise k s).exitCode = some (exitCodeOf k) := rfl
@[simp] theorem raise_inputPending (k : ErrorKind) : (raise k s).inputPending = s.inputPending := rfl
@[simp] theorem raise_inputRequests (k : ErrorKind) : (raise k s).inputRequests = s.inputRequests := rfl
@[simp] theorem raise_output (k : ErrorKind) :
    (raise k s).output = s.output ++ [.dump (dumpOf s), .fatal k] := by simp [raise, emit]
@[simp] theorem raise_answers (k : ErrorKind) : (raise k s).answers = s.answers := rfl

end Sys2Proof.Machine
end

