-- ==== Sys2Proof/Laws/Memory.lean ====
section
/-! SUPPORT. The laws of the memory array: reading back a write, the canonical form, and that canonical
memories with the same words are equal data. -/

namespace Sys2Proof.Machine

namespace Memory

@[simp] theorem read_nil (a : Nat) : read [] a = 0#20 := rfl

theorem read_cons (b : Nat) (w : Word) (m : Memory) (a : Nat) :
    read ((b, w) :: m) a = if a = b then w else read m a := rfl

/-- Nothing is listed below the bound of the canonical form. -/
theorem read_eq_zero_of_lt {m : Memory} {lo a : Nat} (h : wfFrom lo m = true) (ha : a < lo) :
    read m a = 0#20 := by
  induction m generalizing lo with
  | nil => rfl
  | cons c m ih =>
    obtain ⟨b, w⟩ := c
    simp only [wfFrom, Bool.and_eq_true, decide_eq_true_eq] at h
    have hab : a ≠ b := by omega
    rw [read_cons, if_neg hab]
    exact ih h.2 (by omega)

/-- The bound of the canonical form may be lowered. -/
theorem wfFrom_mono {m : Memory} {lo lo' : Nat} (h : wfFrom lo m = true) (hl : lo' ≤ lo) :
    wfFrom lo' m = true := by
  cases m with
  | nil => rfl
  | cons c m =>
    simp only [wfFrom, Bool.and_eq_true, decide_eq_true_eq] at h ⊢
    exact ⟨⟨⟨by omega, h.1.1.2⟩, h.1.2⟩, h.2⟩

theorem read_push (a : Nat) (v : Word) (m : Memory) (b : Nat) :
    read (push a v m) b = if b = a then (if v = 0#20 then read m b else v) else read m b := by
  unfold push
  by_cases hv : v = 0#20 <;> by_cases hb : b = a <;> simp [hv, hb, read_cons]

/-- A write leaves every other address alone, in any memory (20_memory.md R36). -/
theorem read_write_other (m : Memory) (a : Nat) (v : Word) {b : Nat} (h : b ≠ a) :
    read (write m a v) b = read m b := by
  induction m with
  | nil => simp [write, read_push, h]
  | cons c m ih =>
    obtain ⟨d, w⟩ := c
    unfold write
    by_cases h1 : a < d
    · simp [h1, read_push, h]
    · by_cases h2 : a = d
      · subst h2; simp [read_push, h, read_cons]
      · simp [h1, h2, read_cons, ih]

theorem read_write_same_from {m : Memory} {lo : Nat} (hm : wfFrom lo m = true) (a : Nat) (v : Word) :
    read (write m a v) a = v := by
  induction m generalizing lo with
  | nil => by_cases hv : v = 0#20 <;> simp [write, read_push, hv]
  | cons c m ih =>
    obtain ⟨d, w⟩ := c
    have hm' := hm
    simp only [wfFrom, Bool.and_eq_true, decide_eq_true_eq] at hm
    unfold write
    by_cases h1 : a < d
    · have h0 : read ((d, w) :: m) a = 0#20 := by
        rw [read_cons, if_neg (by omega)]
        exact read_eq_zero_of_lt hm.2 (by omega)
      by_cases hv : v = 0#20 <;> simp [h1, read_push, hv, h0]
    · by_cases h2 : a = d
      · subst h2
        have h0 : read m a = 0#20 := read_eq_zero_of_lt hm.2 (by omega)
        by_cases hv : v = 0#20 <;> simp [read_push, hv, h0]
      · simp [h1, h2, read_cons, ih hm.2]

/-- A canonical memory reads back the word just written (20_memory.md R35, R36). -/
theorem read_write_same {m : Memory} (hm : wf m = true) (a : Nat) (v : Word) : read (write m a v) a = v :=
  read_write_same_from hm a v

theorem wfFrom_push {m : Memory} {lo a : Nat} (v : Word) (hm : wfFrom (a + 1) m = true) (hlo : lo ≤ a)
    (ha : a < Config.memSize) : wfFrom lo (push a v m) = true := by
  unfold push
  by_cases hv : v = 0#20
  · simpa [hv] using wfFrom_mono hm (by omega)
  · simp [hv, wfFrom, hlo, ha, hm]

theorem wfFrom_write {m : Memory} {lo a : Nat} (v : Word) (hm : wfFrom lo m = true) (hlo : lo ≤ a)
    (ha : a < Config.memSize) : wfFrom lo (write m a v) = true := by
  induction m generalizing lo with
  | nil => exact wfFrom_push v rfl hlo ha
  | cons c m ih =>
    obtain ⟨d, w⟩ := c
    have hm' := hm
    simp only [wfFrom, Bool.and_eq_true, decide_eq_true_eq] at hm
    unfold write
    by_cases h1 : a < d
    · rw [if_pos h1]
      refine wfFrom_push v ?_ hlo ha
      simp only [wfFrom, Bool.and_eq_true, decide_eq_true_eq]
      exact ⟨⟨⟨by omega, hm.1.1.2⟩, hm.1.2⟩, hm.2⟩
    · by_cases h2 : a = d
      · subst h2; simpa [h1] using wfFrom_push v hm.2 hlo ha
      · simp only [h1, h2, if_false, wfFrom, Bool.and_eq_true, decide_eq_true_eq]
        exact ⟨⟨⟨hm.1.1.1, hm.1.1.2⟩, hm.1.2⟩, ih hm.2 (by omega)⟩

/-- Every write of the memory port keeps the canonical form. -/
theorem wf_write {m : Memory} {a : Nat} (v : Word) (hm : wf m = true) (ha : a < Config.memSize) :
    wf (write m a v) = true :=
  wfFrom_write v hm (Nat.zero_le a) ha

/-- The reset memory is canonical, and every address reads 0 (10_state.md R31). -/
theorem wf_reset : State.reset.mem.wf = true := rfl

/-- No address outside the memory is listed. -/
theorem read_outside {m : Memory} {lo a : Nat} (hm : wfFrom lo m = true) (ha : Config.memSize ≤ a) :
    read m a = 0#20 := by
  induction m generalizing lo with
  | nil => rfl
  | cons c m ih =>
    obtain ⟨d, w⟩ := c
    simp only [wfFrom, Bool.and_eq_true, decide_eq_true_eq] at hm
    rw [read_cons, if_neg (by omega)]
    exact ih hm.2

theorem eq_of_read_from {m n : Memory} {lo : Nat} (hm : wfFrom lo m = true) (hn : wfFrom lo n = true)
    (h : ∀ a, read m a = read n a) : m = n := by
  induction m generalizing lo n with
  | nil =>
    cases n with
    | nil => rfl
    | cons c n =>
      obtain ⟨b, w⟩ := c
      simp only [wfFrom, Bool.and_eq_true, decide_eq_true_eq] at hn
      exact absurd (by simpa [read_cons] using (h b).symm) hn.1.2
  | cons c m ih =>
    obtain ⟨b, w⟩ := c
    cases n with
    | nil =>
      simp only [wfFrom, Bool.and_eq_true, decide_eq_true_eq] at hm
      exact absurd (by simpa [read_cons] using h b) hm.1.2
    | cons e n =>
      obtain ⟨d, v⟩ := e
      simp only [wfFrom, Bool.and_eq_true, decide_eq_true_eq] at hm hn
      have hbd : b = d := by
        rcases Nat.lt_trichotomy b d with hlt | heq | hgt
        · have hb := h b
          rw [read_cons, if_pos rfl, read_cons, if_neg (by omega),
            read_eq_zero_of_lt hn.2 (by omega)] at hb
          exact absurd hb hm.1.2
        · exact heq
        · have hd := h d
          rw [read_cons, if_neg (by omega), read_eq_zero_of_lt hm.2 (by omega), read_cons, if_pos rfl] at hd
          exact absurd hd.symm hn.1.2
      subst hbd
      have hwv : w = v := by simpa [read_cons] using h b
      have hmn : m = n := by
        refine ih hm.2 hn.2 fun a => ?_
        by_cases hab : a = b
        · subst hab
          rw [read_eq_zero_of_lt hm.2 (by omega), read_eq_zero_of_lt hn.2 (by omega)]
        · simpa [read_cons, hab] using h a
      rw [hwv, hmn]

/-- Two canonical memories that read alike at every address are the same data. -/
theorem eq_of_read {m n : Memory} (hm : wf m = true) (hn : wf n = true) (h : ∀ a, read m a = read n a) :
    m = n :=
  eq_of_read_from hm hn h

end Memory

end Sys2Proof.Machine
end

