-- ==== Sys2Proof/Laws/Ops.lean ====
section
/-! SUPPORT. One lemma for each shared operation, saying once everything it can do. -/

namespace Sys2Proof.Machine

/-! ### Errors and the end of a run -/

/-- Raising an error is R102 written out. -/
theorem raise_eq_afterError (k : ErrorKind) (s : State) : raise k s = afterError s k (exitCodeOf k) := by
  simp [raise, afterError, dumpEvent, emit, dumpOf]

theorem dump_dumpOf (s : State) : Event.dump (dumpOf s) = dumpEvent s := rfl

/-! ### Fetch and decode of the fields -/

/-- The fetch and the decode are R66 and R67 written out with division and remainder. -/
theorem decodeFields_fetchWord (s : State) : decodeFields (fetchWord s) = afterFetch s := by
  simp [decodeFields, fetchWord, afterFetch, State.set, State.get, State.load, opcodeField_extended,
    operandField_extended]

/-! ### The operand check -/

theorem withAddress_valid {a : Operand} (s : State) (rule : Nat → State) (h : a.toNat < 1000) :
    withAddress a s rule = .next (rule a.toNat) := by
  simp [withAddress, Config.memSize, h]

theorem withAddress_invalid {a : Operand} (s : State) (rule : Nat → State) (h : 1000 ≤ a.toNat) :
    withAddress a s rule = .next (raise .addressOutOfRange s) := by
  simp [withAddress, Config.memSize, Nat.not_lt.mpr h]

/-- The operand check (40_cycle.md R69): the rule on a valid address, or the error. -/
theorem withAddress_cases {a : Operand} {s t : State} {rule : Nat → State}
    (h : withAddress a s rule = .next t) :
    (a.toNat < 1000 ∧ t = rule a.toNat) ∨ (1000 ≤ a.toNat ∧ t = raise .addressOutOfRange s) := by
  by_cases ha : a.toNat < 1000
  · rw [withAddress_valid s rule ha] at h
    exact .inl ⟨ha, by injection h with h; exact h.symm⟩
  · rw [withAddress_invalid s rule (by omega)] at h
    exact .inr ⟨by omega, by injection h with h; exact h.symm⟩

/-! ### Conditions and the ALU -/

/-- No word is negative (44_control.md R93). -/
@[simp] theorem isNegative_eq (w : Word) : isNegative w = false := by
  simp [isNegative]

theorem isZero_eq_true {w : Word} : isZero w = true ↔ w = 0#20 := ⟨of_decide_eq_true, decide_eq_true⟩

theorem isZero_eq_false {w : Word} : isZero w = false ↔ w ≠ 0#20 := ⟨of_decide_eq_false, decide_eq_false⟩

theorem checkRange_ofNat (n : Nat) :
    checkRange (n : Int) =
      if n ≤ 0xFFFFF then .ok (BitVec.ofNat 20 n) else .error .accumulatorOverflow := by
  unfold checkRange inRange Config.minInput Config.maxInput
  by_cases h : n ≤ 0xFFFFF
  · rw [if_pos (by simp; omega), if_pos h, BitVec.ofInt_natCast]
  · rw [if_neg (by simp; omega), if_neg h]

theorem alu_add (x m : Word) :
    alu .add x m = if x.toNat + m.toNat ≤ 0xFFFFF then .ok (BitVec.ofNat 20 (x.toNat + m.toNat))
      else .error .accumulatorOverflow := by
  rw [← checkRange_ofNat]
  simp [alu, exactResult]

theorem alu_subtract (x m : Word) :
    alu .subtract x m = if m.toNat ≤ x.toNat then .ok (BitVec.ofNat 20 (x.toNat - m.toNat))
      else .error .accumulatorOverflow := by
  have hx := x.isLt
  by_cases h : m.toNat ≤ x.toNat
  · have e : exactResult .subtract x m = ((x.toNat - m.toNat : Nat) : Int) := by
      simp only [exactResult]; omega
    rw [if_pos h, alu, e, checkRange_ofNat, if_pos (by omega)]
  · have hr : inRange (exactResult .subtract x m) = false := by
      simp only [inRange, exactResult, Config.minInput]
      exact decide_eq_false (by omega)
    simp [alu, checkRange, h, hr]

theorem alu_multiply (x m : Word) :
    alu .multiply x m = if x.toNat * m.toNat ≤ 0xFFFFF then .ok (BitVec.ofNat 20 (x.toNat * m.toNat))
      else .error .accumulatorOverflow := by
  rw [← checkRange_ofNat]
  simp [alu, exactResult]

/-- Division never overflows (43_arithmetic.md R84). -/
theorem alu_divide (x m : Word) :
    alu .divide x m = if m.toNat = 0 then .error .divideByZero
      else .ok (BitVec.ofNat 20 (x.toNat / m.toNat)) := by
  have hx := x.isLt
  have hq : x.toNat / m.toNat ≤ x.toNat := Nat.div_le_self _ _
  by_cases h : m = 0#20
  · simp [alu, isZero, h]
  · have h' : m.toNat ≠ 0 := fun e => h (BitVec.eq_of_toNat_eq (by simpa using e))
    have e : alu .divide x m = checkRange ((x.toNat / m.toNat : Nat) : Int) := by
      simp [alu, isZero, h, exactResult]
    rw [if_neg h', e, checkRange_ofNat, if_pos (by omega)]

/-- What an arithmetic instruction leaves: the address error, the ALU's error, or its word in ACC
(43_arithmetic.md R83). -/
theorem arith_cases {op : AluOp} {a : Operand} {s t : State} (h : arith op a s = .next t) :
    (1000 ≤ a.toNat ∧ t = raise .addressOutOfRange s) ∨
    (a.toNat < 1000 ∧ ∃ k, alu op s.acc (s.mem.read a.toNat) = .error k ∧ t = raise k s) ∨
    (a.toNat < 1000 ∧ ∃ v, alu op s.acc (s.mem.read a.toNat) = .ok v ∧ t = advance (s.set .acc v)) := by
  rcases withAddress_cases h with ⟨ha, rfl⟩ | ⟨ha, rfl⟩
  · simp only [State.load, get_acc]
    cases hr : alu op s.acc (s.mem.read a.toNat) with
    | ok v => exact .inr (.inr ⟨ha, v, rfl, rfl⟩)
    | error k => exact .inr (.inl ⟨ha, k, rfl, rfl⟩)
  · exact .inl ⟨ha, rfl⟩

/-! ### Branches -/

/-- What a branch leaves: the address error, the jump, or the advance (44_control.md R91). -/
theorem branchIf_cases {c : Bool} {a : Operand} {s t : State} (h : branchIf c a s = .next t) :
    (1000 ≤ a.toNat ∧ t = raise .addressOutOfRange s) ∨
    (a.toNat < 1000 ∧ c = true ∧ t = jump a s) ∨ (a.toNat < 1000 ∧ c = false ∧ t = advance s) := by
  rcases withAddress_cases h with ⟨ha, rfl⟩ | ⟨ha, rfl⟩
  · cases c
    · exact .inr (.inr ⟨ha, rfl, rfl⟩)
    · exact .inr (.inl ⟨ha, rfl, rfl⟩)
  · exact .inl ⟨ha, rfl⟩

/-! ### The second step of READ -/

/-- The second step of READ stores the host's word at OPR and advances (41_io.md R77). -/
theorem finishRead_cases {w : Word} {ws : List Word} {s t : State} (h : finishRead w ws s = .next t) :
    s.opr.toNat < 1000 ∧ t = advance (acceptInput ws (s.store s.opr.toNat w)) := by
  by_cases ho : s.opr.toNat < 1000
  · simp only [finishRead, get_opr, Config.memSize, ho, if_true] at h
    exact ⟨ho, by injection h with h; exact h.symm⟩
  · simp [finishRead, Config.memSize, ho] at h

/-! ### The host's transactions -/

/-- A preload happens only before the start, at an address of the memory (20_memory.md R49). -/
theorem hostPreload_cases {a : Nat} {w : Word} {s t : State} (h : hostPreload a w s = some t) :
    s.runState = .notStarted ∧ a < 1000 ∧ t = s.store a w := by
  by_cases hc : s.runState = .notStarted ∧ a < 1000
  · exact ⟨hc.1, hc.2, by simpa [hostPreload, Config.memSize, hc] using h.symm⟩
  · simp [hostPreload, Config.memSize, hc] at h

/-- A start happens only once after a reset (70_reset_and_hazards.md R116). -/
theorem hostStart_cases {s t : State} (h : hostStart s = some t) :
    s.runState = .notStarted ∧ t = { s with runState := .running } := by
  by_cases hc : s.runState = .notStarted
  · exact ⟨hc, by simpa [hostStart, hc] using h.symm⟩
  · simp [hostStart, hc] at h

/-- An answer happens only while a request waits for one (20_memory.md R51). -/
theorem hostAnswer_cases {w : Word} {s t : State} (h : hostAnswer w s = some t) :
    s.runState = .waitInput ∧ s.answers = [] ∧ t = { s with answers := [w] } := by
  by_cases hc : s.runState = .waitInput ∧ s.answers = []
  · exact ⟨hc.1, hc.2, by simpa [hostAnswer, hc] using h.symm⟩
  · simp [hostAnswer, hc] at h

end Sys2Proof.Machine
end

