-- ==== Sys2Proof/Laws/PerInstr.lean ====
section
/-! SUPPORT. The family EncodeFields: which fields the encoder gives each instruction's word. -/

namespace Sys2Proof.Laws.EncodeFields

/-- The opcode column of the opcode map (30_encoding.md R59). -/
def opcodeOf : Instr → Nat
  | .read _ => 0x10
  | .write _ => 0x11
  | .newline _ => 0x13
  | .load _ => 0x20
  | .store _ => 0x21
  | .add _ => 0x30
  | .subtract _ => 0x31
  | .divide _ => 0x32
  | .multiply _ => 0x33
  | .branch _ => 0x40
  | .branchneg _ => 0x41
  | .branchzero _ => 0x42
  | .halt _ => 0x43
  | .terminate _ => 0xFF

/-- The word of an instruction is opcode * 0x1000 + operand, as a number (R56, R63). -/
def Statement (i : Instr) : Prop := (encode i).toNat = opcodeOf i * 0x1000 + i.operand.toNat

theorem read (a : Operand) : Statement (.read a) := wordOf_toNat 0x10 a
theorem write (a : Operand) : Statement (.write a) := wordOf_toNat 0x11 a
theorem newline (x : Operand) : Statement (.newline x) := wordOf_toNat 0x13 x
theorem load (a : Operand) : Statement (.load a) := wordOf_toNat 0x20 a
theorem store (a : Operand) : Statement (.store a) := wordOf_toNat 0x21 a
theorem add (a : Operand) : Statement (.add a) := wordOf_toNat 0x30 a
theorem subtract (a : Operand) : Statement (.subtract a) := wordOf_toNat 0x31 a
theorem divide (a : Operand) : Statement (.divide a) := wordOf_toNat 0x32 a
theorem multiply (a : Operand) : Statement (.multiply a) := wordOf_toNat 0x33 a
theorem branch (t : Operand) : Statement (.branch t) := wordOf_toNat 0x40 t
theorem branchneg (t : Operand) : Statement (.branchneg t) := wordOf_toNat 0x41 t
theorem branchzero (t : Operand) : Statement (.branchzero t) := wordOf_toNat 0x42 t
theorem halt (x : Operand) : Statement (.halt x) := wordOf_toNat 0x43 x
theorem terminate (x : Operand) : Statement (.terminate x) := wordOf_toNat 0xFF x

end Sys2Proof.Laws.EncodeFields
end

