-- ==== Sys2Proof/Laws/Step.lean ====
section
/-! SUPPORT. What an instruction and a step can do: one inversion lemma each, cited by every proof about
`exec` and `step` instead of unfolding them. -/

namespace Sys2Proof.Machine

/-! ### The meaning of each instruction in terms of the shared operations -/

theorem exec_read (a : Operand) (s : State) :
    exec (.read a) s = withAddress a s fun _ => requestInput (emit .prompt s) := rfl

theorem exec_write (a : Operand) (s : State) :
    exec (.write a) s = withAddress a s fun addr => advance (emit (.write a (s.mem.read addr)) s) := rfl

theorem exec_newline (x : Operand) (s : State) : exec (.newline x) s = .next (advance (emit .newline s)) :=
  rfl

theorem exec_load (a : Operand) (s : State) :
    exec (.load a) s = withAddress a s fun addr => advance (s.set .acc (s.mem.read addr)) := rfl

theorem exec_store (a : Operand) (s : State) :
    exec (.store a) s = withAddress a s fun addr => advance (s.store addr s.acc) := rfl

theorem exec_add (a : Operand) (s : State) : exec (.add a) s = arith .add a s := rfl

theorem exec_subtract (a : Operand) (s : State) : exec (.subtract a) s = arith .subtract a s := rfl

theorem exec_divide (a : Operand) (s : State) : exec (.divide a) s = arith .divide a s := rfl

theorem exec_multiply (a : Operand) (s : State) : exec (.multiply a) s = arith .multiply a s := rfl

theorem exec_branch (t : Operand) (s : State) : exec (.branch t) s = branchIf true t s := rfl

theorem exec_branchneg (t : Operand) (s : State) : exec (.branchneg t) s = branchIf false t s := by
  rw [← isNegative_eq s.acc]; rfl

theorem exec_branchzero (t : Operand) (s : State) :
    exec (.branchzero t) s = branchIf (isZero s.acc) t s := rfl

theorem exec_halt (x : Operand) (s : State) :
    exec (.halt x) s = .next (finish (emit (.dump (dumpOf s)) (emit .haltMessage s))) := rfl

theorem exec_terminate (x : Operand) (s : State) : exec (.terminate x) s = .next (finish s) := rfl

/-! ### What an instruction can do -/

/-- The four arithmetic instructions and the ALU operation of each (43_arithmetic.md). -/
inductive IsArith : Instr → AluOp → Operand → Prop
  | add (a : Operand) : IsArith (.add a) .add a
  | subtract (a : Operand) : IsArith (.subtract a) .subtract a
  | divide (a : Operand) : IsArith (.divide a) .divide a
  | multiply (a : Operand) : IsArith (.multiply a) .multiply a

/-- Everything an instruction's execution can leave (40_cycle.md R70), guards included. -/
inductive ExecTo (i : Instr) (s : State) : State → Prop
  | badAddress : i.kind ≠ .ignored → 1000 ≤ i.operand.toNat → ExecTo i s (raise .addressOutOfRange s)
  | read (a : Operand) : i = .read a → a.toNat < 1000 → ExecTo i s (requestInput (emit .prompt s))
  | write (a : Operand) : i = .write a → a.toNat < 1000 →
      ExecTo i s (advance (emit (.write a (s.mem.read a.toNat)) s))
  | newline (x : Operand) : i = .newline x → ExecTo i s (advance (emit .newline s))
  | load (a : Operand) : i = .load a → a.toNat < 1000 →
      ExecTo i s (advance (s.set .acc (s.mem.read a.toNat)))
  | store (a : Operand) : i = .store a → a.toNat < 1000 → ExecTo i s (advance (s.store a.toNat s.acc))
  | arithError (op : AluOp) (a : Operand) (k : ErrorKind) : IsArith i op a → a.toNat < 1000 →
      alu op s.acc (s.mem.read a.toNat) = .error k → ExecTo i s (raise k s)
  | arithResult (op : AluOp) (a : Operand) (v : Word) : IsArith i op a → a.toNat < 1000 →
      alu op s.acc (s.mem.read a.toNat) = .ok v → ExecTo i s (advance (s.set .acc v))
  | taken (a : Operand) : (i = .branch a ∨ (i = .branchzero a ∧ s.acc = 0#20)) → a.toNat < 1000 →
      ExecTo i s (jump a s)
  | notTaken (a : Operand) : (i = .branchneg a ∨ (i = .branchzero a ∧ s.acc ≠ 0#20)) → a.toNat < 1000 →
      ExecTo i s (advance s)
  | halt (x : Operand) : i = .halt x → ExecTo i s (finish (emit (.dump (dumpOf s)) (emit .haltMessage s)))
  | terminate (x : Operand) : i = .terminate x → ExecTo i s (finish s)

theorem arith_execTo {i : Instr} {op : AluOp} {a : Operand} {s t : State} (hi : IsArith i op a)
    (h : arith op a s = .next t) : ExecTo i s t := by
  rcases arith_cases h with ⟨ha, rfl⟩ | ⟨ha, k, hk, rfl⟩ | ⟨ha, v, hv, rfl⟩
  · cases hi <;> exact .badAddress (by simp [Instr.kind]) (by simpa [Instr.operand] using ha)
  · exact .arithError op a k hi ha hk
  · exact .arithResult op a v hi ha hv

/-- The inversion of `exec`: whatever it leaves is one of the cases of `ExecTo`. -/
theorem exec_cases {i : Instr} {s t : State} (h : exec i s = .next t) : ExecTo i s t := by
  cases i with
  | read a =>
    rw [exec_read] at h
    rcases withAddress_cases h with ⟨ha, rfl⟩ | ⟨ha, rfl⟩
    · exact .read a rfl ha
    · exact .badAddress (by simp [Instr.kind]) ha
  | write a =>
    rw [exec_write] at h
    rcases withAddress_cases h with ⟨ha, rfl⟩ | ⟨ha, rfl⟩
    · exact .write a rfl ha
    · exact .badAddress (by simp [Instr.kind]) ha
  | newline x =>
    injection h with h
    exact h ▸ .newline x rfl
  | load a =>
    rw [exec_load] at h
    rcases withAddress_cases h with ⟨ha, rfl⟩ | ⟨ha, rfl⟩
    · exact .load a rfl ha
    · exact .badAddress (by simp [Instr.kind]) ha
  | store a =>
    rw [exec_store] at h
    rcases withAddress_cases h with ⟨ha, rfl⟩ | ⟨ha, rfl⟩
    · exact .store a rfl ha
    · exact .badAddress (by simp [Instr.kind]) ha
  | add a => exact arith_execTo (.add a) h
  | subtract a => exact arith_execTo (.subtract a) h
  | divide a => exact arith_execTo (.divide a) h
  | multiply a => exact arith_execTo (.multiply a) h
  | branch a =>
    rcases branchIf_cases h with ⟨ha, rfl⟩ | ⟨ha, -, rfl⟩ | ⟨-, hc, -⟩
    · exact .badAddress (by simp [Instr.kind]) ha
    · exact .taken a (.inl rfl) ha
    · cases hc
  | branchneg a =>
    rw [exec_branchneg] at h
    rcases branchIf_cases h with ⟨ha, rfl⟩ | ⟨-, hc, -⟩ | ⟨ha, -, rfl⟩
    · exact .badAddress (by simp [Instr.kind]) ha
    · cases hc
    · exact .notTaken a (.inl rfl) ha
  | branchzero a =>
    rcases branchIf_cases h with ⟨ha, rfl⟩ | ⟨ha, hc, rfl⟩ | ⟨ha, hc, rfl⟩
    · exact .badAddress (by simp [Instr.kind]) ha
    · exact .taken a (.inr ⟨rfl, isZero_eq_true.mp hc⟩) ha
    · exact .notTaken a (.inr ⟨rfl, isZero_eq_false.mp hc⟩) ha
  | halt x =>
    injection h with h
    exact h ▸ .halt x rfl
  | terminate x =>
    injection h with h
    exact h ▸ .terminate x rfl

/-! ### What a step can do -/

/-- Everything a step of the engine can do (40_cycle.md R65 to R70), guards included. -/
inductive StepTo (s : State) : State → Prop
  | offTheEnd : s.runState = .running → 1000 ≤ s.ic.toNat → StepTo s (finish s)
  | invalid : s.runState = .running → s.ic.toNat < 1000 →
      decode (s.mem.read s.ic.toNat) = .error .invalidOpcode →
      StepTo s (raise .invalidOpcode (afterFetch s))
  | instr (i : Instr) (t : State) : s.runState = .running → s.ic.toNat < 1000 →
      decode (s.mem.read s.ic.toNat) = .ok i → exec i (afterFetch s) = .next t → StepTo s t
  | answered (w : Word) (ws : List Word) : s.runState = .waitInput → s.answers = w :: ws →
      s.opr.toNat < 1000 → StepTo s (advance (acceptInput ws (s.store s.opr.toNat w)))

/-- A cycle past the memory. -/
theorem cycle_end {s : State} (h : 1000 ≤ s.ic.toNat) : cycle s = .next (finish s) := by
  simp [cycle, Config.memSize, h]

/-- A cycle inside the memory. -/
theorem cycle_fetch {s : State} (h : s.ic.toNat < 1000) : cycle s = checkAndExecute (afterFetch s) := by
  simp [cycle, Config.memSize, Nat.not_le.mpr h, decodeFields_fetchWord]

theorem step_running {s : State} (h : s.runState = .running) : step s = cycle s := by
  simp [step, engineStep, h]

/-- The inversion of `step`: whatever it leaves is one of the cases of `StepTo`. -/
theorem step_cases {s t : State} (h : step s = .next t) : StepTo s t := by
  cases hr : s.runState with
  | notStarted => simp [step, engineStep, hr] at h
  | halted => simp [step, engineStep, hr] at h
  | aborted k => simp [step, engineStep, hr] at h
  | waitInput =>
    cases ha : s.answers with
    | nil => simp [step, engineStep, hr, ha] at h
    | cons w ws =>
      simp only [step, engineStep, hr, ha] at h
      obtain ⟨ho, rfl⟩ := finishRead_cases h
      exact .answered w ws hr ha ho
  | running =>
    rw [step_running hr] at h
    by_cases hic : s.ic.toNat < 1000
    · rw [cycle_fetch hic, checkAndExecute, get_ir] at h
      have hir : (afterFetch s).ir = s.mem.read s.ic.toNat := rfl
      rw [hir] at h
      cases hd : decode (s.mem.read s.ic.toNat) with
      | ok i =>
        rw [hd] at h
        exact .instr i t hr hic hd h
      | error e =>
        cases e
        rw [hd] at h
        injection h with h
        exact h ▸ .invalid hr hic hd
    · rw [cycle_end (by omega)] at h
      injection h with h
      exact h ▸ .offTheEnd hr (by omega)

end Sys2Proof.Machine
end

