-- ==== Sys2Proof/Tests/Slice0.lean ====
section
/-! SUPPORT. Tests: expected results are those of 95_test_vectors.md (the vector's number stands in each
comment) and of the spec's encodings; and a witness for the hypotheses of each statement. -/

open Sys2Proof Sys2Proof.Machine

namespace Sys2Proof.Tests

/-- A started run at `ic` with `acc` and the memory `mem`, all else as after reset. -/
def started (ic acc : Nat) (mem : Memory) : State :=
  { State.reset with runState := .running, ic := BitVec.ofNat 20 ic, acc := BitVec.ofNat 20 acc, mem := mem }

/-- The state in which a READ of address 50 at address 4 waits, with the words `ws` to come. -/
def waiting (ws : List Word) : State :=
  { started 4 0 [(4, 0x10032)] with
    runState := .waitInput, ir := 0x10032, opc := 0x10, opr := 50, inputPending := true,
    inputRequests := 1, output := [.prompt], answers := ws }

/-- The outcome is a next state with the property. -/
def nextIs (r : Result) (p : State → Bool) : Bool :=
  match r with
  | .next t => p t
  | _ => false

/-! ### Well-formedness -/

theorem test_wf_refuses_mem_operands :
    [Instr.read 1000, .write 1000, .load 1000, .store 4095, .add 1000, .subtract 1000, .divide 1000,
      .multiply 1000].map Instr.wf = List.replicate 8 false := by decide

theorem test_wf_refuses_targets :
    [Instr.branch 1000, .branchneg 4095, .branchzero 1000].map Instr.wf = List.replicate 3 false := by decide

theorem test_wf_admits_addresses_and_ignored_fields :
    [Instr.load 999, .branch 999, .newline 4095, .halt 4095, .terminate 4095].map Instr.wf =
      List.replicate 5 true := by decide

/-! ### Decoding (30_encoding.md R59, each word written out bit by bit) -/

theorem test_decode_read : decode 0b00010000000000110010 = .ok (.read 50) := by decide
theorem test_decode_write : decode 0b00010001000000110100 = .ok (.write 52) := by decide
theorem test_decode_newline : decode 0b00010011101010111100 = .ok (.newline 0xABC) := by decide
theorem test_decode_load : decode 0b00100000001111100111 = .ok (.load 999) := by decide
theorem test_decode_store : decode 0b00100001000000000111 = .ok (.store 7) := by decide
theorem test_decode_add : decode 0b00110000000000000110 = .ok (.add 6) := by decide
theorem test_decode_subtract : decode 0b00110001000000010101 = .ok (.subtract 21) := by decide
theorem test_decode_divide : decode 0b00110010111111111111 = .ok (.divide 4095) := by decide
theorem test_decode_multiply : decode 0b00110011000000001001 = .ok (.multiply 9) := by decide
theorem test_decode_branch : decode 0b01000000001111101000 = .ok (.branch 1000) := by decide
theorem test_decode_branchneg : decode 0b01000001000000000000 = .ok (.branchneg 0) := by decide
theorem test_decode_branchzero : decode 0b01000010000000001000 = .ok (.branchzero 8) := by decide
theorem test_decode_halt : decode 0b01000011111111111111 = .ok (.halt 0xFFF) := by decide
theorem test_decode_terminate : decode 0b11111111111111111111 = .ok (.terminate 0xFFF) := by decide

/-- D-2 to D-10: words with invalid opcodes. -/
theorem test_decode_rejects :
    [0x00000, 0x12000, 0x14000, 0x22000, 0x34000, 0x44000, 0xFE000, 0x0F123, 0x99FFF].map decode =
      List.replicate 9 (.error .invalidOpcode) := by decide

/-- No two rows of the opcode map share an opcode (R59: the 14 matches are distinct). -/
theorem test_opcodes_distinct :
    ([Instr.read 0, .write 0, .newline 0, .load 0, .store 0, .add 0, .subtract 0, .divide 0, .multiply 0,
      .branch 0, .branchneg 0, .branchzero 0, .halt 0, .terminate 0].map
        fun i => opcodeField (encode i)).Nodup := by decide

theorem test_table_word : decodeTableWord 24 0x21007 = some (.store 7) := by decide
theorem test_table_word_too_wide : decodeTableWord 24 0x121007 = none := by decide

/-- The word placed by `withFetchWord` is the first instruction that runs after reset. -/
theorem test_first_instruction_after_reset :
    nextIs (step (State.reset.withFetchWord 24 0x13FFF)) (fun t =>
      decide (t.output = [.newline] ∧ t.ic = 1 ∧ t.ir = 0x13FFF ∧ t.runState = .running)) = true := by decide

/-! ### One step of each instruction (95_test_vectors.md L2) -/

/-- IO-1. -/
theorem test_read_waits :
    nextIs (step (started 4 0 [(4, 0x10032)])) (fun t => decide (t = waiting [])) = true := by decide

/-- IO-2. -/
theorem test_read_stores_the_answer :
    nextIs (step (waiting [0x00064])) (fun t =>
      decide (t.runState = .running ∧ t.mem.read 50 = 0x00064 ∧ t.ic = 5 ∧ t.output = [.prompt])) = true := by
  decide

/-- IO-7. -/
theorem test_write_emits :
    nextIs (step (started 6 0 [(6, 0x11034), (52, 0x0000E)])) (fun t =>
      decide (t.output = [.write 0x034 0x0000E] ∧ t.ic = 7)) = true := by decide

/-- IO-9. -/
theorem test_write_beyond_memory :
    nextIs (step (started 6 0 [(6, 0x113E8)])) (fun t =>
      decide (t.runState = .aborted .addressOutOfRange ∧ t.exitCode = some 5 ∧ t.ic = 6)) = true := by decide

/-- IO-11. -/
theorem test_newline_ignores_its_operand :
    nextIs (step (started 7 0 [(7, 0x13ABC)])) (fun t =>
      decide (t.output = [.newline] ∧ t.ic = 8)) = true := by decide

/-- LS-2: LOAD of its own address. -/
theorem test_load_own_word :
    nextIs (step (started 5 0 [(5, 0x20005)])) (fun t => decide (t.acc = 0x20005 ∧ t.ic = 6)) = true := by
  decide

/-- LS-6: STORE over its own address. -/
theorem test_store_own_address :
    nextIs (step (started 2 0x43000 [(2, 0x21002)])) (fun t =>
      decide (t.mem.read 2 = 0x43000 ∧ t.ir = 0x21002 ∧ t.ic = 3)) = true := by decide

/-- LS-8. -/
theorem test_store_beyond_memory :
    nextIs (step (started 1 9 [(1, 0x213E8)])) (fun t =>
      decide (t.runState = .aborted .addressOutOfRange ∧ t.mem = [(1, 0x213E8)] ∧ t.acc = 9 ∧ t.ic = 1)) =
      true := by decide

/-- AR-4: no sign bit. -/
theorem test_add_in_range :
    nextIs (step (started 0 0x80000 [(0, 0x30009), (9, 0x7FFFF)])) (fun t =>
      decide (t.acc = 0xFFFFF ∧ t.ic = 1)) = true := by decide

/-- AR-3 and EP-4: the dump shows the state before the instruction with the fetched fields. -/
theorem test_add_overflow :
    nextIs (step (started 0 0xFFFFF [(0, 0x30009), (9, 1)])) (fun t =>
      decide (t.acc = 0xFFFFF ∧ t.exitCode = some 4 ∧
        t.output = [.dump ⟨0xFFFFF, 0, 0x30009, 0x30, 9, [(0, 0x30009), (9, 1)]⟩,
          .fatal .accumulatorOverflow])) = true := by decide

/-- AR-8. -/
theorem test_subtract_to_zero :
    nextIs (step (started 0 5 [(0, 0x31009), (9, 5)])) (fun t => decide (t.acc = 0 ∧ t.ic = 1)) = true := by
  decide

/-- AR-10. -/
theorem test_subtract_below_zero :
    nextIs (step (started 0 5 [(0, 0x31009), (9, 7)])) (fun t =>
      decide (t.runState = .aborted .accumulatorOverflow ∧ t.acc = 5 ∧ t.ic = 0)) = true := by decide

/-- AR-20. -/
theorem test_divide :
    nextIs (step (started 0 0x64 [(0, 0x32009), (9, 7)])) (fun t => decide (t.acc = 0xE ∧ t.ic = 1)) = true := by
  decide

/-- AR-26 and EP-3: 0 div 0. -/
theorem test_divide_zero_by_zero :
    nextIs (step (started 0 0 [(0, 0x32009)])) (fun t =>
      decide (t.runState = .aborted .divideByZero ∧ t.exitCode = some 2)) = true := by decide

/-- AR-14. -/
theorem test_multiply_in_range :
    nextIs (step (started 0 0x400 [(0, 0x33009), (9, 0x3FF)])) (fun t =>
      decide (t.acc = 0xFFC00 ∧ t.ic = 1)) = true := by decide

/-- AR-19: a product reduced to 32 bits would be 0. -/
theorem test_multiply_exact_overflow :
    nextIs (step (started 0 0x10000 [(0, 0x33009), (9, 0x10000)])) (fun t =>
      decide (t.runState = .aborted .accumulatorOverflow ∧ t.acc = 0x10000)) = true := by decide

/-- CT-2. -/
theorem test_branch_to_the_last_word :
    nextIs (step (started 0 0 [(0, 0x403E7)])) (fun t => decide (t.ic = 999)) = true := by decide

/-- CT-8. -/
theorem test_branchneg_not_taken :
    nextIs (step (started 4 0xFFFFF [(4, 0x41000)])) (fun t => decide (t.ic = 5)) = true := by decide

/-- D-14. -/
theorem test_branchneg_checks_its_target :
    nextIs (step (started 4 0 [(4, 0x413E8)])) (fun t =>
      decide (t.runState = .aborted .addressOutOfRange)) = true := by decide

/-- CT-9. -/
theorem test_branchzero_taken :
    nextIs (step (started 1 0 [(1, 0x42008)])) (fun t => decide (t.ic = 8)) = true := by decide

/-- CT-12. -/
theorem test_branchzero_off_the_end :
    nextIs (step (started 999 1 [(999, 0x42000)])) (fun t =>
      decide (t.ic = 1000 ∧ t.runState = .running)) = true := by decide

/-- T-2. -/
theorem test_halt :
    nextIs (step (started 1 0 [(1, 0x43FFF)])) (fun t =>
      decide (t.runState = .halted ∧ t.exitCode = some 0 ∧ t.ic = 1 ∧
        t.output = [.haltMessage, .dump ⟨0, 1, 0x43FFF, 0x43, 0xFFF, [(1, 0x43FFF)]⟩])) = true := by decide

/-- T-4. -/
theorem test_terminate :
    nextIs (step (started 0 0 [(0, 0xFFFFF)])) (fun t =>
      decide (t.runState = .halted ∧ t.exitCode = some 0 ∧ t.ic = 0 ∧ t.output = [])) = true := by decide

/-- T-5. -/
theorem test_end_of_memory :
    nextIs (step (started 1000 0 [])) (fun t =>
      decide (t.runState = .halted ∧ t.exitCode = some 0 ∧ t.ic = 1000 ∧ t.output = [])) = true := by decide

/-- EP-1: InvalidOpcode before AddressOutOfRange. -/
theorem test_invalid_opcode_first :
    nextIs (step (started 0 0 [(0, 0x99FFF)])) (fun t =>
      decide (t.runState = .aborted .invalidOpcode ∧ t.exitCode = some 3 ∧ t.opr = 0xFFF)) = true := by decide

/-- Writing 0 removes the entry, so that equal memories are equal data. -/
theorem test_memory_canonical : Memory.write [(3, 1), (7, 2)] 3 0 = [(7, 2)] := by decide

/-! ### Witnesses: states and operands that meet the hypotheses of the statements -/

theorem witness_DecodedWordReencodes : decode 0x20005 = .ok (.load 5) := by decide

theorem witness_InvalidOpcodesEndTheRun :
    (started 999 0 [(999, 0x44FFF)]).ic.toNat < 1000 ∧
    InvalidOpcodeValue ((fetchedWord (started 999 0 [(999, 0x44FFF)])).toNat / 4096) ∧
    ([0x0F, 0x12, 0x14, 0x1F, 0x22, 0x2F, 0x34, 0x3F, 0x44, 0xFE].all fun n => decide (InvalidOpcodeValue n)) ∧
    ([0x10, 0x11, 0x13, 0x20, 0x21, 0x30, 0x33, 0x40, 0x43, 0xFF].all fun n =>
      decide (¬InvalidOpcodeValue n)) := by decide

theorem witness_StepRunsDecodedInstruction :
    (started 999 0 [(999, 0x20005)]).runState = .running ∧
    (started 999 0 [(999, 0x20005)]).ic.toNat < 1000 ∧
    decode (fetchedWord (started 999 0 [(999, 0x20005)])) = .ok (.load 5) := by decide

theorem witness_FetchAndDecodeWriteTheFields :
    (started 999 0 []).runState = .running ∧ (started 999 0 []).ic.toNat < 1000 := by decide

theorem witness_OperandAboveMemoryEndsTheRun :
    (Instr.load 1000).kind ≠ .ignored ∧ 1000 ≤ (Instr.load 1000).operand.toNat ∧
    (Instr.branchneg 4095).kind ≠ .ignored ∧ 1000 ≤ (Instr.branchneg 4095).operand.toNat := by decide

theorem witness_EndOfMemoryHalts :
    (started 1000 0 []).runState = .running ∧ 1000 ≤ (started 1000 0 []).ic.toNat := by decide

theorem witness_EngineStepsExactlyWhen :
    (started 0 0 []).runState = .running ∧
    ((waiting [7]).runState = .waitInput ∧ (waiting [7]).answers ≠ [] ∧ (waiting [7]).opr.toNat < 1000) ∧
    State.reset.runState = .notStarted ∧
    ((waiting []).runState = .waitInput ∧ (waiting []).answers = []) := by decide

theorem witness_TerminalStatesHaveNoStep :
    (finish (started 0 0 [])).runState = .halted ∧
    (raise .divideByZero (started 0 0 [])).runState = .aborted .divideByZero := by decide

theorem witness_ExitCodeOfEveryEnd :
    (∃ t, step (started 1000 0 []) = .next t ∧ t.runState = .halted) ∧
    (∃ t, step (started 0 0 []) = .next t ∧ t.runState = .aborted .invalidOpcode) ∧
    (∃ t, step (started 0 0 [(0, 0x203E8)]) = .next t ∧ t.runState = .aborted .addressOutOfRange) ∧
    (∃ t, step (started 0 0 [(0, 0x32009)]) = .next t ∧ t.runState = .aborted .divideByZero) ∧
    (∃ t, step (started 0 0xFFFFF [(0, 0x30000)]) = .next t ∧ t.runState = .aborted .accumulatorOverflow) :=
  ⟨⟨_, rfl, rfl⟩, ⟨_, rfl, rfl⟩, ⟨_, rfl, rfl⟩, ⟨_, rfl, rfl⟩, ⟨_, rfl, rfl⟩⟩

theorem witness_RunStateMoves :
    (∃ t, (waiting [7]).runState = .waitInput ∧ step (waiting [7]) = .next t) ∧
    (∃ t, step (started 4 0 [(4, 0x10032)]) = .next t ∧ t.runState = .waitInput) :=
  ⟨⟨_, rfl, rfl⟩, ⟨_, rfl, rfl⟩⟩

theorem witness_ReadTakesTwoSteps :
    let s : State := { started 999 0 [(999, 0x103E7)] with answers := [0xFFFFF] }
    s.runState = .running ∧ s.ic.toNat < 1000 ∧ decode (fetchedWord s) = .ok (.read 999) ∧
    (999#12).toNat < 1000 ∧ s.answers = 0xFFFFF :: [] ∧ s.mem.wf = true := by decide

/-- A state of a run that is going on: the second instruction of a program is next. -/
theorem running_state_inv : (started 999 7 [(999, 0x30000)]).Inv where
  mem_wf := by decide
  opc_field := by decide
  opr_field := by decide
  ic_le := by decide
  exit_code := by decide
  pending_iff := by decide
  requests_prompted := by decide
  fresh := by decide
  waiting := by decide
  halted := by decide
  aborted := by intro k h; cases h

/-- A READ waits at address 4. -/
theorem waiting_state_inv : (waiting []).Inv where
  mem_wf := by decide
  opc_field := by decide
  opr_field := by decide
  ic_le := by decide
  exit_code := by decide
  pending_iff := by decide
  requests_prompted := by decide
  fresh := by decide
  waiting := by decide
  halted := by decide
  aborted := by intro k h; cases h

theorem witness_StepKeepsInv :
    (started 999 7 [(999, 0x30000)]).Inv ∧ ∃ t, step (started 999 7 [(999, 0x30000)]) = .next t ∧ t.acc = 7 :=
  ⟨running_state_inv, _, rfl, rfl⟩

theorem witness_HostTransactionsKeepInv :
    (waiting []).Inv ∧ (∃ t, hostAnswer 5 (waiting []) = some t) ∧
    (∃ t, hostPreload 999 5 .reset = some t) ∧ ∃ t, hostStart .reset = some t :=
  ⟨waiting_state_inv, ⟨_, rfl⟩, ⟨_, rfl⟩, ⟨_, rfl⟩⟩

/-- A reachable state after a preload, the start and one step. -/
theorem witness_ReachableStatesSatisfyInv : ∃ s, Reachable s ∧ s.output = [.newline] ∧ s.ic = 1 :=
  ⟨_, .engine (.start (.preload (a := 0) (w := 0x13000) .reset rfl) rfl) rfl, rfl, rfl⟩

/-- The advance at address 999 leads to IC = 1000, the state of CT-12. -/
theorem witness_CounterIsAnAddressUntilTheEnd :
    (started 999 7 [(999, 0x30000)]).Inv ∧ (started 999 7 [(999, 0x30000)]).runState ≠ .halted ∧
    (∃ t, step (started 999 7 [(999, 0x30000)]) = .next t ∧ t.runState = .running ∧ t.ic.toNat = 1000) ∧
    (waiting []).Inv ∧ (waiting []).runState = .waitInput :=
  ⟨running_state_inv, by decide, ⟨_, rfl, rfl, rfl⟩, waiting_state_inv, rfl⟩

/-- The RUNNING state with IC = 1000 meets the invariant (T-5). -/
theorem end_state_inv : (started 1000 7 [(999, 0x30000)]).Inv where
  mem_wf := by decide
  opc_field := by decide
  opr_field := by decide
  ic_le := by decide
  exit_code := by decide
  pending_iff := by decide
  requests_prompted := by decide
  fresh := by decide
  waiting := by decide
  halted := by decide
  aborted := by intro k h; cases h

/-- Each clause of CounterInRangeOnceTheEndIsTested: IC = 999 in RUNNING, a READ that waits, IC = 1000. -/
theorem witness_CounterInRangeOnceTheEndIsTested :
    ((started 999 7 [(999, 0x30000)]).Inv ∧
      (afterEndTest (started 999 7 [(999, 0x30000)])).runState = .running) ∧
    ((waiting []).Inv ∧ (afterEndTest (waiting [])).runState = .waitInput) ∧
    (started 1000 7 [(999, 0x30000)]).Inv ∧ (afterEndTest (started 1000 7 [(999, 0x30000)])).ic.toNat = 1000 :=
  ⟨⟨running_state_inv, rfl⟩, ⟨waiting_state_inv, rfl⟩, end_state_inv, rfl⟩

/-- At the last address, to the last address (a branch to itself) and to address 0. -/
theorem witness_BranchTargetIsFetchedNext :
    let s := started 999 0 [(999, 0x403E7)]
    let s' := started 999 0 [(999, 0x40000)]
    (s.runState = .running ∧ s.ic.toNat < 1000 ∧ decode (fetchedWord s) = .ok (.branch 999) ∧
      (999#12).toNat < 1000) ∧
    s'.runState = .running ∧ s'.ic.toNat < 1000 ∧ decode (fetchedWord s') = .ok (.branch 0) := by decide

theorem witness_ErrorsArePrecise :
    ∃ t, step (started 3 5 [(3, 0x31009), (9, 7)]) = .next t ∧ t.runState = .aborted .accumulatorOverflow :=
  ⟨_, rfl, rfl⟩

theorem witness_EachErrorExactlyWhen :
    (started 999 5 [(9, 6), (999, 0x31009)]).runState = .running ∧
    (started 999 5 [(9, 6), (999, 0x31009)]).ic.toNat < 1000 ∧
    ∃ t, step (started 999 5 [(9, 6), (999, 0x31009)]) = .next t ∧ t.runState = .aborted .accumulatorOverflow :=
  ⟨rfl, by decide, _, rfl, rfl⟩

theorem witness_InstructionRegisterWrittenOnlyByFetch :
    (∃ t, exec (.store 2) (started 2 1 []) = .next t) ∧
    (∃ t, step (started 999 0 [(999, 0x13000)]) = .next t) ∧
    (∃ t, step (waiting [7]) = .next t) ∧
    (∃ t, hostPreload 0 1 .reset = some t) ∧ (∃ t, hostStart .reset = some t) ∧
    ∃ t, hostAnswer 1 (waiting []) = some t :=
  ⟨⟨_, rfl⟩, ⟨_, rfl⟩, ⟨_, rfl⟩, ⟨_, rfl⟩, ⟨_, rfl⟩, ⟨_, rfl⟩⟩

theorem witness_MemoryWrittenOnlyByStoreReadAndPreload :
    (∃ t, (started 2 9 [(2, 0x213E7)]).mem.wf = true ∧ step (started 2 9 [(2, 0x213E7)]) = .next t ∧
      t.mem.read 999 ≠ (started 2 9 [(2, 0x213E7)]).mem.read 999) ∧
    (∃ t, (waiting [7]).mem.wf = true ∧ step (waiting [7]) = .next t ∧
      t.mem.read 50 ≠ (waiting [7]).mem.read 50) ∧
    (∃ t, hostPreload 999 1 .reset = some t) ∧ (∃ t, hostStart .reset = some t) ∧
    ∃ t, hostAnswer 1 (waiting []) = some t :=
  ⟨⟨_, rfl, rfl, by decide⟩, ⟨_, rfl, rfl, by decide⟩, ⟨_, rfl⟩, ⟨_, rfl⟩, ⟨_, rfl⟩⟩

theorem witness_AccumulatorWrittenOnlyByLoadAndArithmetic :
    ∃ t, step (started 0 0 [(0, 0x20000)]) = .next t ∧ t.acc ≠ (started 0 0 [(0, 0x20000)]).acc :=
  ⟨_, rfl, by decide⟩

theorem witness_CounterChangesOnlyAsStated :
    (∃ t, step (started 999 1 [(999, 0x42000)]) = .next t ∧ t.runState = .running) ∧
    (∃ t, step (started 999 0 [(999, 0x42000)]) = .next t ∧ t.runState = .running ∧ t.ic = 0) ∧
    (∃ t, step (started 3 0 [(3, 0x43000)]) = .next t ∧ t.runState ≠ .running) :=
  ⟨⟨_, rfl, rfl⟩, ⟨_, rfl, rfl, rfl⟩, ⟨_, rfl, by decide⟩⟩

theorem witness_LoadAndArithmeticFrame :
    (∃ t, exec (.load 999) (started 0 0 []) = .next t ∧ t.ic ≠ (started 0 0 []).ic) ∧
    (∃ t, exec (.divide 1000) (started 0 0 []) = .next t ∧ t.ic = (started 0 0 []).ic) :=
  ⟨⟨_, rfl, by decide⟩, ⟨_, rfl, rfl⟩⟩

theorem witness_IoBranchAndEndFrame :
    (∃ t, exec (.read 999) (started 0 0 []) = .next t) ∧
    (∃ t, exec (.branch 999) (started 0 0 []) = .next t ∧ t.ic ≠ (started 0 0 []).ic) ∧
    (∃ t, exec (.halt 0) (started 0 0 []) = .next t) :=
  ⟨⟨_, rfl⟩, ⟨_, rfl, by decide⟩, ⟨_, rfl⟩⟩

theorem witness_StoreFrame :
    (∃ t, exec (.store 999) (started 0 1 []) = .next t) ∧ ∃ t, exec (.store 1000) (started 0 1 []) = .next t :=
  ⟨⟨_, rfl⟩, ⟨_, rfl⟩⟩

theorem witness_ReadSecondStepFrame : (waiting [7]).runState = .waitInput ∧ ∃ t, step (waiting [7]) = .next t :=
  ⟨rfl, _, rfl⟩

theorem witness_EventsOfOneStep : ∃ t, step (started 3 0 [(3, 0x43000)]) = .next t ∧ t.output.length = 2 :=
  ⟨_, rfl, rfl⟩

theorem witness_StepIgnoresUnrequestedWords : (started 0 0 [(0, 0x10032)]).runState ≠ .waitInput := by decide

theorem witness_StepIgnoresOldFetchedFields :
    (started 999 0 []).runState = .running ∧ (started 999 0 []).ic.toNat < 1000 := by decide

theorem witness_StoredWordIsFetchedNext :
    let s := started 998 0x43000 [(998, 0x213E7)]
    s.runState = .running ∧ s.ic.toNat < 999 ∧ s.mem.wf = true ∧
    decode (fetchedWord s) = .ok (.store 999) ∧ (999#12).toNat = s.ic.toNat + 1 := by decide

theorem witness_ReadWaitsThenStoresTheWord :
    1000 ≤ (1000#12).toNat ∧ (999#12).toNat < 1000 ∧
    ((waiting []).runState = .waitInput ∧ (waiting []).answers = []) ∧
    (started 4 0 []).runState ≠ .waitInput ∧
    (waiting [7]).runState = .waitInput ∧ (waiting [7]).answers = 7 :: [] ∧
    (waiting [7]).opr.toNat < 1000 ∧ (waiting [7]).mem.wf = true := by decide

/-- For WriteEmitsTheWord, LoadCopiesTheWord, StoreCopiesTheAccumulator, BranchSetsTheCounter and
BranchnegNeverTaken: both clauses, at the last address and above it, over a canonical memory. -/
theorem witness_AddressClauses :
    1000 ≤ (1000#12).toNat ∧ (999#12).toNat < 1000 ∧ (started 0 0 [(999, 1)]).mem.wf = true := by decide

theorem witness_AddWritesTheExactSum :
    1000 ≤ (1000#12).toNat ∧
    ((999#12).toNat < 1000 ∧ (started 0 0xFFFFE [(999, 1)]).acc.toNat +
      ((started 0 0xFFFFE [(999, 1)]).mem.read 999).toNat ≤ 0xFFFFF) ∧
    0xFFFFF < (started 0 0xFFFFF [(999, 1)]).acc.toNat +
      ((started 0 0xFFFFF [(999, 1)]).mem.read 999).toNat := by decide

theorem witness_SubtractWritesTheExactDifference :
    1000 ≤ (1000#12).toNat ∧
    ((999#12).toNat < 1000 ∧
      ((started 0 1 [(999, 1)]).mem.read 999).toNat ≤ (started 0 1 [(999, 1)]).acc.toNat) ∧
    (started 0 0 [(999, 1)]).acc.toNat < ((started 0 0 [(999, 1)]).mem.read 999).toNat := by decide

theorem witness_DivideWritesTheQuotient :
    1000 ≤ (1000#12).toNat ∧
    ((999#12).toNat < 1000 ∧ ((started 0 1 []).mem.read 999).toNat = 0) ∧
    ((started 0 1 [(999, 1)]).mem.read 999).toNat ≠ 0 := by decide

theorem witness_MultiplyWritesTheExactProduct :
    1000 ≤ (1000#12).toNat ∧
    ((999#12).toNat < 1000 ∧ (started 0 0xFFFFF [(999, 1)]).acc.toNat *
      ((started 0 0xFFFFF [(999, 1)]).mem.read 999).toNat ≤ 0xFFFFF) ∧
    0xFFFFF < (started 0 0x400 [(999, 0x400)]).acc.toNat *
      ((started 0 0x400 [(999, 0x400)]).mem.read 999).toNat := by decide

/-- The two outcomes at the bounds of the range: 0xFFFFF, and one above and one below it. -/
theorem witness_ExactResultOrOverflow :
    ((999#12).toNat < 1000 ∧ (0xFFFFF : Int) = ((started 0 0xFFFFE [(999, 1)]).acc.toNat : Int) +
      ((started 0 0xFFFFE [(999, 1)]).mem.read 999).toNat) ∧
    (0x100000 : Int) = ((started 0 0x400 [(999, 0x400)]).acc.toNat : Int) *
      ((started 0 0x400 [(999, 0x400)]).mem.read 999).toNat ∧
    (-1 : Int) = ((started 0 0 [(999, 1)]).acc.toNat : Int) -
      ((started 0 0 [(999, 1)]).mem.read 999).toNat := by decide

theorem witness_DivideLeavesAProperRemainder :
    (999#12).toNat < 1000 ∧ ((started 0 7 [(999, 2)]).mem.read 999).toNat ≠ 0 := by decide

theorem witness_BranchzeroTestsTheAccumulator :
    1000 ≤ (1000#12).toNat ∧ ((999#12).toNat < 1000 ∧ (started 0 0 []).acc = 0) ∧
    (started 0 1 []).acc ≠ 0 := by decide

theorem witness_PreloadWritesOneWordBeforeStart :
    State.reset.mem.wf = true ∧ State.reset.runState = .notStarted ∧ 999 < 1000 ∧
    (started 0 0 []).runState ≠ .notStarted := by decide

theorem witness_StartRunsFromAddressZero : State.reset.runState = .notStarted ∧ State.reset.ic = 0 := by decide

end Sys2Proof.Tests
end

section
/-! SUPPORT. What the host's transactions do, and what an instruction and a step do to IR and to memory. -/

namespace Sys2Proof.Machine

variable {i : Instr} {s t : State} {a : Nat} {w : Word}

/-! ### The host's transactions -/

/-- A preload is made before the start, at an address of the memory (20_memory.md R49, R115). -/
theorem hostPreload_eq_some :
    hostPreload a w s = some t ↔ s.runState = .notStarted ∧ a < 1000 ∧ t = s.store a w := by
  rw [hostPreload, Option.ite_none_right_eq_some, Option.some.injEq, and_assoc, eq_comm (a := t),
    Config.memSize]

/-- The start is made once, before any step (70_reset_and_hazards.md R116). -/
theorem hostStart_eq_some :
    hostStart s = some t ↔ s.runState = .notStarted ∧ t = { s with runState := .running } := by
  simp only [hostStart, Option.ite_none_right_eq_some, Option.some.injEq, eq_comm (a := t)]

/-- An answer is given only to a request that waits for one (20_memory.md R48, R51). -/
theorem hostAnswer_eq_some :
    hostAnswer w s = some t ↔ s.runState = .waitInput ∧ s.answers = [] ∧ t = { s with answers := [w] } := by
  simp only [hostAnswer, Option.ite_none_right_eq_some, Option.some.injEq, and_assoc, eq_comm (a := t)]

/-! ### The instruction register -/

/-- No instruction writes IR, a STORE over its own address included (10_state.md R22). -/
theorem exec_ir (h : exec i s = .next t) : t.ir = s.ir := by
  cases exec_cases h <;> simp

/-- A cycle that fetches leaves the fetched word in IR, whatever ends it. -/
theorem step_ir_of_fetch (h : step s = .next t) (hr : s.runState = .running) (hic : s.ic.toNat < 1000) :
    t.ir = fetchedWord s := by
  cases step_cases h with
  | offTheEnd _ hend => omega
  | invalid => simp
  | instr i _ _ _ _ hexec => simpa using exec_ir hexec
  | answered _ _ hw => simp [hr] at hw

/-- A step that fetches nothing, at the end of memory or the second of READ, leaves IR. -/
theorem step_ir_of_no_fetch (h : step s = .next t) (hf : ¬(s.runState = .running ∧ s.ic.toNat < 1000)) :
    t.ir = s.ir := by
  cases step_cases h with
  | offTheEnd => simp
  | invalid hr hic => exact absurd ⟨hr, hic⟩ hf
  | instr _ _ hr hic => exact absurd ⟨hr, hic⟩ hf
  | answered => simp

/-! ### The memory -/

/-- The memory an instruction leaves: only a STORE at a valid address writes it (42_load_store.md R82). -/
theorem exec_mem (h : exec i s = .next t) :
    t.mem = s.mem ∨
    ∃ a : Operand, i = .store a ∧ a.toNat < 1000 ∧ t.mem = s.mem.write a.toNat s.acc := by
  cases exec_cases h with
  | store a hi ha => exact .inr ⟨a, hi, ha, by simp⟩
  | _ => exact .inl (by simp)

/-- The memory a step leaves: as it was, or with one word written by the fetched STORE or by the answered
READ (10_state.md R30). -/
theorem step_mem (h : step s = .next t) :
    t.mem = s.mem ∨
    (s.runState = .running ∧ ∃ a : Operand, decode (fetchedWord s) = .ok (.store a) ∧
      a.toNat < 1000 ∧ t.mem = s.mem.write a.toNat s.acc) ∨
    (s.runState = .waitInput ∧ ∃ w, s.answers.head? = some w ∧
      s.opr.toNat < 1000 ∧ t.mem = s.mem.write s.opr.toNat w) := by
  cases step_cases h with
  | offTheEnd => exact .inl (by simp)
  | invalid => exact .inl (by simp)
  | instr i _ hr _ hd hexec =>
    rcases exec_mem hexec with hm | ⟨a, rfl, ha, hm⟩
    · exact .inl (by simpa using hm)
    · exact .inr (.inl ⟨hr, a, hd, ha, by simpa using hm⟩)
  | answered w ws hr hws ho => exact .inr (.inr ⟨hr, w, by simp [hws], ho, by simp⟩)

/-- A word that a write to a canonical memory changes is at the written address, and is the word written. -/
theorem Memory.read_write_changed {m : Memory} {b : Nat} (hm : m.wf = true)
    (h : (m.write a w).read b ≠ m.read b) : b = a ∧ (m.write a w).read b = w := by
  have hb : b = a := not_imp_comm.mp (Memory.read_write_other m a w) h
  exact ⟨hb, hb ▸ Memory.read_write_same hm b w⟩

end Sys2Proof.Machine
end

section
open Sys2Proof Sys2Proof.Machine

/-- Settles O22: the execution leaves IR, so a step leaves in it the word it fetched, or what was there. -/
theorem instructionRegisterWrittenOnlyByFetch : Obligations.InstructionRegisterWrittenOnlyByFetch := by
  refine ⟨fun i s t h => exec_ir h, fun s t h => ⟨step_ir_of_fetch h, step_ir_of_no_fetch h⟩, ?_⟩
  rintro s t (⟨a, w, h⟩ | h | ⟨w, h⟩)
  · obtain ⟨-, -, rfl⟩ := hostPreload_eq_some.mp h
    exact store_ir ..
  · obtain ⟨-, rfl⟩ := hostStart_eq_some.mp h
    rfl
  · obtain ⟨-, -, rfl⟩ := hostAnswer_eq_some.mp h
    rfl

/-- Settles O23: a step makes at most one write, that of STORE or of READ, and a write changes no word but
the one it writes. -/
theorem memoryWrittenOnlyByStoreReadAndPreload : Obligations.MemoryWrittenOnlyByStoreReadAndPreload := by
  refine ⟨fun s t b hwf h hb => ?_, fun s t a w h => ?_, ?_⟩
  · rcases step_mem h with hm | ⟨hr, a, hd, -, hm⟩ | ⟨hr, w, hw, -, hm⟩
    · exact absurd (by rw [hm]) hb
    · rw [hm] at hb ⊢
      obtain ⟨hba, hv⟩ := Memory.read_write_changed hwf hb
      exact .inl ⟨hr, a, hd, hba, hv⟩
    · rw [hm] at hb ⊢
      obtain ⟨hba, hv⟩ := Memory.read_write_changed hwf hb
      exact .inr ⟨hr, hba, by rw [hv, hw]⟩
  · obtain ⟨hr, -, rfl⟩ := hostPreload_eq_some.mp h
    exact ⟨hr, fun b hb => Memory.read_write_other s.mem a w hb⟩
  · rintro s t (h | ⟨w, h⟩) b
    · obtain ⟨-, rfl⟩ := hostStart_eq_some.mp h
      rfl
    · obtain ⟨-, -, rfl⟩ := hostAnswer_eq_some.mp h
      rfl

end

section
/-! SUPPORT. The words with an invalid opcode, and the step that fetches one. -/

namespace Sys2Proof

/-- Outside the 14 rows of the opcode map (30_encoding.md R59) lie exactly the values listed in R60, so the
decoder refuses a word by its opcode alone, whatever the operand. -/
theorem decode_eq_invalidOpcode_iff (w : Word) :
    decode w = .error .invalidOpcode ↔ Machine.InvalidOpcodeValue (w.toNat / 4096) := by
  have hlt : (opcodeField w).toNat < 256 := (opcodeField w).isLt
  rw [← opcodeField_toNat, decode]
  split
  case h_15 =>
    simp only [Machine.InvalidOpcodeValue, true_iff, imp_false] at *
    omega
  all_goals
    rename_i hopcode
    simp [hopcode]

end Sys2Proof

namespace Sys2Proof.Machine

/-- The opcode check comes first (40_cycle.md R68): a cycle whose fetched word does not decode raises
InvalidOpcode at the state after the fetch, with the exit code 3 (60_exceptions.md R98). -/
theorem step_of_decode_invalidOpcode {s : State} (hr : s.runState = .running) (hic : s.ic.toNat < 1000)
    (hd : decode (fetchedWord s) = .error .invalidOpcode) :
    step s = .next (afterError (afterFetch s) .invalidOpcode 3) := by
  calc step s = checkAndExecute (afterFetch s) := by rw [step_running hr, cycle_fetch hic]
    _ = .next (raise .invalidOpcode (afterFetch s)) := by
      rw [checkAndExecute, get_ir, afterFetch_ir, hd]
    _ = .next (afterError (afterFetch s) .invalidOpcode 3) := by rw [raise_eq_afterError, exitCodeOf]

/-- From 0x44 to 0xFE lies one block of 187 invalid opcodes. -/
theorem filter_invalidOpcodeValue_block :
    (List.range' 0x44 187).filter (fun n => decide (InvalidOpcodeValue n)) = List.range' 0x44 187 := by
  rw [List.filter_eq_self]
  intro n hn
  obtain ⟨hlo, hhi⟩ := List.mem_range'_1.mp hn
  simp only [InvalidOpcodeValue, decide_eq_true_eq]
  omega

/-- R60 lists 242 of the 256 opcodes: 55 below 0x44, the block of 187 from there, and not 0xFF. -/
theorem length_filter_invalidOpcodeValue :
    ((List.range 256).filter fun n => decide (InvalidOpcodeValue n)).length = 242 := by
  have hlow : ((List.range' 0 0x44).filter fun n => decide (InvalidOpcodeValue n)).length = 55 := by decide
  have hlast : ([0xFF].filter fun n => decide (InvalidOpcodeValue n)).length = 0 := by decide
  have hhigh : List.range' 0x44 188 = List.range' 0x44 187 ++ [0xFF] := List.range'_1_concat
  have hall : List.range 256 = List.range' 0 0x44 ++ List.range' 0x44 188 := by
    rw [List.range_eq_range', List.range'_append_1 (s := 0)]
  rw [hall, hhigh, List.filter_append, List.filter_append, List.length_append, List.length_append, hlow,
    hlast, filter_invalidOpcodeValue_block, List.length_range']

end Sys2Proof.Machine
end

section
open Sys2Proof Sys2Proof.Machine

/-- Settles O4: the decoder refuses exactly the opcodes of R60's list, and a step that fetches a refused
word raises InvalidOpcode before anything is executed. -/
theorem invalidOpcodesEndTheRun : Obligations.InvalidOpcodesEndTheRun :=
  ⟨decode_eq_invalidOpcode_iff, length_filter_invalidOpcodeValue, (decode_eq_invalidOpcode_iff 0).mpr (by decide),
    fun _ hr hic hw => step_of_decode_invalidOpcode hr hic ((decode_eq_invalidOpcode_iff _).mpr hw)⟩

end

section
/-! SUPPORT. A cycle that fetches has a next state, and what it leaves in OPC and OPR. -/

namespace Sys2Proof.Machine

variable {i : Instr} {s t : State}

/-! ### The next state exists -/

/-- The operand check answers a next state on either side of the bound (40_cycle.md R69). -/
theorem withAddress_next (a : Operand) (s : State) (rule : Nat → State) :
    ∃ t, withAddress a s rule = .next t := by
  by_cases ha : a.toNat < 1000
  · exact ⟨_, withAddress_valid s rule ha⟩
  · exact ⟨_, withAddress_invalid s rule (Nat.le_of_not_lt ha)⟩

/-- An arithmetic instruction answers a next state, an error of the ALU included. -/
theorem arith_next (op : AluOp) (a : Operand) (s : State) : ∃ t, arith op a s = .next t :=
  withAddress_next a s _

/-- A branch answers a next state, taken or not. -/
theorem branchIf_next (taken : Bool) (a : Operand) (s : State) : ∃ t, branchIf taken a s = .next t :=
  withAddress_next a s _

/-- Every instruction answers a next state: an error is one too (60_exceptions.md R102). -/
theorem exec_next (i : Instr) (s : State) : ∃ t, exec i s = .next t := by
  cases i with
  | read a => rw [exec_read]; exact withAddress_next a s _
  | write a => rw [exec_write]; exact withAddress_next a s _
  | newline x => exact ⟨_, exec_newline x s⟩
  | load a => rw [exec_load]; exact withAddress_next a s _
  | store a => rw [exec_store]; exact withAddress_next a s _
  | add a => exact arith_next .add a s
  | subtract a => exact arith_next .subtract a s
  | divide a => exact arith_next .divide a s
  | multiply a => exact arith_next .multiply a s
  | branch a => exact branchIf_next true a s
  | branchneg a => exact branchIf_next (isNegative s.acc) a s
  | branchzero a => exact branchIf_next (isZero s.acc) a s
  | halt x => exact ⟨_, exec_halt x s⟩
  | terminate x => exact ⟨_, exec_terminate x s⟩

/-- A cycle whose fetched word decodes executes its instruction at the state after the fetch
(40_cycle.md R70). -/
theorem step_of_decode_ok (hr : s.runState = .running) (hic : s.ic.toNat < 1000)
    (hd : decode (fetchedWord s) = .ok i) : step s = exec i (afterFetch s) := by
  calc step s = checkAndExecute (afterFetch s) := by rw [step_running hr, cycle_fetch hic]
    _ = exec i (afterFetch s) := by rw [checkAndExecute, get_ir, afterFetch_ir, hd]

/-- A cycle that fetches has a next state, whether its word decodes or not. -/
theorem step_next_of_fetch (hr : s.runState = .running) (hic : s.ic.toNat < 1000) :
    ∃ t, step s = .next t := by
  cases hd : decode (fetchedWord s) with
  | ok i => exact step_of_decode_ok hr hic hd ▸ exec_next i (afterFetch s)
  | error e =>
    cases e
    exact ⟨_, step_of_decode_invalidOpcode hr hic hd⟩

/-! ### The decoded fields -/

/-- No instruction writes OPC or OPR: they are written by the decode alone (10_state.md R23). -/
theorem exec_opc_opr (h : exec i s = .next t) : t.opc = s.opc ∧ t.opr = s.opr := by
  cases exec_cases h <;> simp

/-- The decode writes OPC and OPR before the checks (40_cycle.md R67), and nothing later in the cycle
changes them. -/
theorem step_opc_opr_of_fetch (h : step s = .next t) (hr : s.runState = .running)
    (hic : s.ic.toNat < 1000) : t.opc = (afterFetch s).opc ∧ t.opr = (afterFetch s).opr := by
  cases step_cases h with
  | offTheEnd _ hend => omega
  | invalid => simp
  | instr i _ _ _ _ hexec => exact exec_opc_opr hexec
  | answered _ _ hw => simp [hr] at hw

/-- The quotient of a word fits OPC, so OPC holds it exactly. -/
theorem afterFetch_opc_toNat (s : State) : (afterFetch s).opc.toNat = (fetchedWord s).toNat / 4096 := by
  rw [afterFetch_opc, BitVec.toNat_ofNat, Nat.mod_eq_of_lt (by omega)]

/-- The remainder of a word fits OPR, so OPR holds it exactly. -/
theorem afterFetch_opr_toNat (s : State) : (afterFetch s).opr.toNat = (fetchedWord s).toNat % 4096 := by
  rw [afterFetch_opr, BitVec.toNat_ofNat, Nat.mod_eq_of_lt (by omega)]

end Sys2Proof.Machine
end

section
open Sys2Proof Sys2Proof.Machine

/-- Settles O7: a cycle that fetches has a next state, whatever ends it, and IR, OPC and OPR are there as
the fetch and the decode wrote them. -/
theorem fetchAndDecodeWriteTheFields : Obligations.FetchAndDecodeWriteTheFields := by
  intro s hr hic
  obtain ⟨t, h⟩ := step_next_of_fetch hr hic
  obtain ⟨hopc, hopr⟩ := step_opc_opr_of_fetch h hr hic
  exact ⟨t, h, step_ir_of_fetch h hr hic, hopc ▸ afterFetch_opc_toNat s, hopr ▸ afterFetch_opr_toNat s⟩

end

section
/-! SUPPORT. The word of an opcode and an operand as a number, the error of the operand check written out,
and what WRITE does. -/

namespace Sys2Proof

/-- The number opcode * 0x1000 + operand is the word with these two fields (30_encoding.md R56). -/
theorem ofNat_opcode_operand (o : Opcode) (a : Operand) :
    BitVec.ofNat 20 (o.toNat * 0x1000 + a.toNat) = wordOf o a := by
  rw [← wordOf_toNat, BitVec.ofNat_toNat, BitVec.setWidth_eq]

/-- The row of WRITE in the opcode map (30_encoding.md R59). -/
theorem decode_wordOf_write (a : Operand) : decode (wordOf 0x11 a) = .ok (.write a) := by
  rw [decode, opcodeField_wordOf, operandField_wordOf]
  rfl

end Sys2Proof

namespace Sys2Proof.Machine

/-- An operand above the memory raises AddressOutOfRange (40_cycle.md R69), with the exit code of R98. -/
theorem withAddress_eq_afterError {a : Operand} (s : State) (rule : Nat → State) (h : 1000 ≤ a.toNat) :
    withAddress a s rule = .next (afterError s .addressOutOfRange Config.oorExitCode) := by
  rw [withAddress_invalid s rule h, raise_eq_afterError, exitCodeOf]

/-- WRITE with a valid operand emits the word there and advances (41_io.md R78). -/
theorem exec_write_valid {a : Operand} (s : State) (h : a.toNat < 1000) :
    exec (.write a) s = .next (advance (emit (.write a (s.mem.read a.toNat)) s)) := by
  rw [exec_write, withAddress_valid s _ h]

end Sys2Proof.Machine
end

section
open Sys2Proof Sys2Proof.Machine

/-- Settles O36: the word 0x11 * 0x1000 + operand is WRITE's, the operand check raises its error, and past
the check WRITE emits one event and advances. -/
theorem writeEmitsTheWord : Obligations.WriteEmitsTheWord := by
  refine fun a s => ⟨?_, fun ha => ?_, fun ha => exec_write_valid s ha⟩
  · exact (congrArg decode (ofNat_opcode_operand 0x11 a)).trans (decode_wordOf_write a)
  · rw [exec_write, withAddress_eq_afterError s _ ha]

end

section
/-! SUPPORT. Every row of the opcode map decoded from its number, and what LOAD and STORE do at an address of
the memory. -/

namespace Sys2Proof

open Laws.EncodeFields in
/-- The word of an instruction is the number opcode * 0x1000 + operand (30_encoding.md R56, R63). -/
theorem encode_eq_ofNat (i : Instr) : encode i = BitVec.ofNat 20 (opcodeOf i * 0x1000 + i.operand.toNat) := by
  cases i <;> exact (ofNat_opcode_operand _ _).symm

/-- Every row of the opcode map (30_encoding.md R59): the decoder reads back the two fields that the encoder
put together. -/
theorem decode_encode (i : Instr) : decode (encode i) = .ok i := by
  cases i <;> rw [encode, decode, opcodeField_wordOf, operandField_wordOf] <;> rfl

open Laws.EncodeFields in
/-- Every row of the opcode map (30_encoding.md R59), from the number opcode * 0x1000 + operand. -/
theorem decode_ofNat (i : Instr) :
    decode (BitVec.ofNat 20 (opcodeOf i * 0x1000 + i.operand.toNat)) = .ok i := by
  rw [← encode_eq_ofNat, decode_encode]

end Sys2Proof

namespace Sys2Proof.Machine

/-- LOAD with a valid operand writes the word there to ACC and advances (42_load_store.md R81). -/
theorem exec_load_valid {a : Operand} (s : State) (h : a.toNat < 1000) :
    exec (.load a) s = .next (advance (s.set .acc (s.mem.read a.toNat))) := by
  rw [exec_load, withAddress_valid s _ h]

/-- STORE with a valid operand writes ACC there and advances (42_load_store.md R82). -/
theorem exec_store_valid {a : Operand} (s : State) (h : a.toNat < 1000) :
    exec (.store a) s = .next (advance (s.store a.toNat s.acc)) := by
  rw [exec_store, withAddress_valid s _ h]

end Sys2Proof.Machine
end

section
open Sys2Proof Sys2Proof.Machine

/-- Settles O38: the word 0x20 * 0x1000 + operand is LOAD's, the operand check raises its error, and past the
check LOAD writes ACC and advances. -/
theorem loadCopiesTheWord : Obligations.LoadCopiesTheWord := by
  refine fun a s => ⟨decode_ofNat (.load a), fun ha => ?_, fun ha => exec_load_valid s ha⟩
  rw [exec_load, withAddress_eq_afterError s _ ha]

/-- Settles O39: past the operand check STORE makes one write of the memory, which reads back ACC, leaves
every other word, and keeps the canonical form. -/
theorem storeCopiesTheAccumulator : Obligations.StoreCopiesTheAccumulator := by
  refine fun a s hwf => ⟨decode_ofNat (.store a), fun ha => ?_, fun ha => ?_⟩
  · rw [exec_store, withAddress_eq_afterError s _ ha]
  · exact ⟨_, exec_store_valid s ha, rfl, Memory.read_write_same hwf a.toNat s.acc,
      fun _ hb => Memory.read_write_other s.mem a.toNat s.acc hb, Memory.wf_write s.acc hwf ha⟩

end

section
/-! SUPPORT. The range check over the integers, and what an arithmetic instruction does for each answer of the
ALU. -/

namespace Sys2Proof.Machine

variable {i : Instr} {op : AluOp} {a : Operand} {s : State}

/-! ### The range check and the ALU -/

/-- An exact result in the range is the word written, without wrapping (43_arithmetic.md R83). -/
theorem checkRange_of_mem {r : Int} (h : 0 ≤ r ∧ r ≤ 0xFFFFF) :
    ∃ v, checkRange r = .ok v ∧ (v.toNat : Int) = r := by
  obtain ⟨n, rfl⟩ := Int.eq_ofNat_of_zero_le h.1
  have hn : n ≤ 0xFFFFF := by omega
  refine ⟨BitVec.ofNat 20 n, (checkRange_ofNat n).trans (if_pos hn), ?_⟩
  rw [BitVec.toNat_ofNat, Nat.mod_eq_of_lt (by omega)]

/-- An exact result outside the range is an overflow, on either side of it (43_arithmetic.md R83). -/
theorem checkRange_of_not_mem {r : Int} (h : r < 0 ∨ 0xFFFFF < r) :
    checkRange r = .error .accumulatorOverflow := by
  have hr : inRange r = false := decide_eq_false (by simp only [Config.minInput, Config.maxInput]; omega)
  simp [checkRange, hr]

/-- But for the division, which tests its divisor first, the ALU is the range check of the exact result
(43_arithmetic.md R83, R85). -/
theorem alu_eq_checkRange (h : op ≠ .divide) (x m : Word) : alu op x m = checkRange (exactResult op x m) := by
  cases op with
  | divide => exact absurd rfl h
  | _ => rfl

/-! ### The arithmetic instructions -/

/-- An arithmetic instruction is the shared operation with its ALU operation. -/
theorem exec_of_isArith (hi : IsArith i op a) (s : State) : exec i s = arith op a s := by
  cases hi <;> rfl

/-- The operand check comes before the ALU (40_cycle.md R69). -/
theorem exec_arith_badAddress (hi : IsArith i op a) (ha : 1000 ≤ a.toNat) :
    exec i s = .next (afterError s .addressOutOfRange Config.oorExitCode) := by
  rw [exec_of_isArith hi, arith, withAddress_eq_afterError s _ ha]

/-- The word the ALU answers goes to ACC, and IC advances (43_arithmetic.md R83). -/
theorem exec_arith_ok {v : Word} (hi : IsArith i op a) (ha : a.toNat < 1000)
    (hv : alu op s.acc (s.mem.read a.toNat) = .ok v) :
    exec i s = .next { s with acc := v, ic := s.ic + 1 } := by
  rw [exec_of_isArith hi, arith, withAddress_valid s _ ha, get_acc, State.load, hv]
  rfl

/-- An error of the ALU is raised at the state before the instruction (43_arithmetic.md R83). -/
theorem exec_arith_error {k : ErrorKind} (hi : IsArith i op a) (ha : a.toNat < 1000)
    (hk : alu op s.acc (s.mem.read a.toNat) = .error k) :
    exec i s = .next (afterError s k (exitCodeOf k)) := by
  rw [exec_of_isArith hi, arith, withAddress_valid s _ ha, get_acc, State.load, hk, writeResult,
    raise_eq_afterError]

/-- R83 for every arithmetic instruction but DIVIDE: the exact result in ACC, or the overflow. -/
theorem exec_arith_exact (hi : IsArith i op a) (hop : op ≠ .divide) (ha : a.toNat < 1000) {r : Int}
    (hr : exactResult op s.acc (s.mem.read a.toNat) = r) :
    (0 ≤ r ∧ r ≤ 0xFFFFF →
      ∃ t, exec i s = .next t ∧ (t.acc.toNat : Int) = r ∧ t = { s with acc := t.acc, ic := s.ic + 1 }) ∧
    (r < 0 ∨ 0xFFFFF < r → exec i s = .next (afterError s .accumulatorOverflow 4)) := by
  have halu : alu op s.acc (s.mem.read a.toNat) = checkRange r := hr ▸ alu_eq_checkRange hop _ _
  constructor
  · intro hin
    obtain ⟨v, hv, hvr⟩ := checkRange_of_mem hin
    exact ⟨_, exec_arith_ok hi ha (halu.trans hv), hvr, rfl⟩
  · exact fun hout => exec_arith_error hi ha (halu.trans (checkRange_of_not_mem hout))

end Sys2Proof.Machine
end

section
open Sys2Proof Sys2Proof.Machine

/-- Settles O44: each of the three instructions is the range check of its own exact result. -/
theorem exactResultOrOverflow : Obligations.ExactResultOrOverflow := by
  rintro i a s r ha (⟨rfl, rfl⟩ | ⟨rfl, rfl⟩ | ⟨rfl, rfl⟩)
  · exact exec_arith_exact (.add a) nofun ha rfl
  · exact exec_arith_exact (.subtract a) nofun ha rfl
  · exact exec_arith_exact (.multiply a) nofun ha rfl

/-- Settles O40: past the operand check the ALU answers the sum, or the overflow above 0xFFFFF. -/
theorem addWritesTheExactSum : Obligations.AddWritesTheExactSum := by
  refine fun a s => ⟨decode_ofNat (.add a), exec_arith_badAddress (.add a), fun ha h => ?_, fun ha h => ?_⟩
  · exact exec_arith_ok (.add a) ha ((alu_add _ _).trans (if_pos h))
  · exact exec_arith_error (.add a) ha ((alu_add _ _).trans (if_neg (Nat.not_le.mpr h)))

/-- Settles O41: past the operand check the ALU answers the difference, or the overflow below 0. -/
theorem subtractWritesTheExactDifference : Obligations.SubtractWritesTheExactDifference := by
  refine fun a s =>
    ⟨decode_ofNat (.subtract a), exec_arith_badAddress (.subtract a), fun ha h => ?_, fun ha h => ?_⟩
  · exact exec_arith_ok (.subtract a) ha ((alu_subtract _ _).trans (if_pos h))
  · exact exec_arith_error (.subtract a) ha ((alu_subtract _ _).trans (if_neg (Nat.not_le.mpr h)))

/-- Settles O42: past the operand check the ALU answers the error of a zero divisor, or the quotient, which is
never above ACC. -/
theorem divideWritesTheQuotient : Obligations.DivideWritesTheQuotient := by
  refine fun a s =>
    ⟨decode_ofNat (.divide a), exec_arith_badAddress (.divide a), fun ha h => ?_, fun ha h => ?_⟩
  · exact exec_arith_error (.divide a) ha ((alu_divide _ _).trans (if_pos h))
  · exact exec_arith_ok (.divide a) ha ((alu_divide _ _).trans (if_neg h))

/-- Settles O43: past the operand check the ALU answers the product, or the overflow above 0xFFFFF. -/
theorem multiplyWritesTheExactProduct : Obligations.MultiplyWritesTheExactProduct := by
  refine fun a s =>
    ⟨decode_ofNat (.multiply a), exec_arith_badAddress (.multiply a), fun ha h => ?_, fun ha h => ?_⟩
  · exact exec_arith_ok (.multiply a) ha ((alu_multiply _ _).trans (if_pos h))
  · exact exec_arith_error (.multiply a) ha ((alu_multiply _ _).trans (if_neg (Nat.not_le.mpr h)))

end

section
/-! SUPPORT. What the shared operation of the branches does for each target and condition (44_control.md R91). -/

namespace Sys2Proof.Machine

variable {t : Operand}

/-- The jump writes the operand's own value to IC: the zero extension loses nothing (44_control.md R91). -/
theorem jump_eq (t : Operand) (s : State) : jump t s = { s with ic := BitVec.ofNat 20 t.toNat } := by
  rw [BitVec.ofNat_toNat]
  rfl

/-- The target is checked before the condition, so also for a branch not taken (40_cycle.md R69). -/
theorem branchIf_badTarget (taken : Bool) (s : State) (ht : 1000 ≤ t.toNat) :
    branchIf taken t s = .next (afterError s .addressOutOfRange Config.oorExitCode) :=
  withAddress_eq_afterError s _ ht

/-- A taken branch sets IC to its target and does not advance (44_control.md R91). -/
theorem branchIf_taken (s : State) (ht : t.toNat < 1000) :
    branchIf true t s = .next { s with ic := BitVec.ofNat 20 t.toNat } := by
  rw [branchIf, withAddress_valid s _ ht, if_pos rfl, jump_eq]

/-- A branch that is not taken only advances (44_control.md R91). -/
theorem branchIf_notTaken (s : State) (ht : t.toNat < 1000) :
    branchIf false t s = .next { s with ic := s.ic + 1 } := by
  rw [branchIf, withAddress_valid s _ ht, if_neg Bool.false_ne_true]
  rfl

end Sys2Proof.Machine
end

section
open Sys2Proof Sys2Proof.Machine

/-- Settles O46: BRANCH is the branch that is always taken. -/
theorem branchSetsTheCounter : Obligations.BranchSetsTheCounter := by
  refine fun t s => ⟨decode_ofNat (.branch t), fun ht => ?_, fun ht => ?_⟩
  · rw [exec_branch, branchIf_badTarget true s ht]
  · rw [exec_branch, branchIf_taken s ht]

/-- Settles O48: BRANCHZERO is the branch taken exactly when ACC is 0, and its target is checked either way. -/
theorem branchzeroTestsTheAccumulator : Obligations.BranchzeroTestsTheAccumulator := by
  refine fun t s => ⟨decode_ofNat (.branchzero t), fun ht => ?_, fun ht hacc => ?_, fun ht hacc => ?_⟩
  · rw [exec_branchzero, branchIf_badTarget (isZero s.acc) s ht]
  · rw [exec_branchzero, isZero_eq_true.mpr hacc, branchIf_taken s ht]
  · rw [exec_branchzero, isZero_eq_false.mpr hacc, branchIf_notTaken s ht]

end

section
/-! SUPPORT. The exit code that an instruction and a step leave (60_exceptions.md R98). -/

namespace Sys2Proof.Machine

variable {i : Instr} {s t : State}

/-! ### The exit code of a run state -/

@[simp] theorem expectedExit_running : RunState.running.expectedExit = none := rfl
@[simp] theorem expectedExit_waitInput : RunState.waitInput.expectedExit = none := rfl
@[simp] theorem expectedExit_halted : RunState.halted.expectedExit = some 0 := rfl

/-- The code that `raise` sets is the one of the run state it sets. -/
@[simp] theorem expectedExit_aborted (k : ErrorKind) :
    (RunState.aborted k).expectedExit = some (exitCodeOf k) := by
  cases k <;> rfl

/-! ### The exit code after an instruction and after a step -/

/-- Only `finish` and `raise` end a run, and each sets the code of the run state it sets; an instruction that
does neither leaves the run going on, with the exit code as it was. -/
theorem exec_exitCode (h : exec i s = .next t) (hr : s.runState = .running) :
    t.exitCode = t.runState.expectedExit.or s.exitCode := by
  cases exec_cases h with
  | badAddress | arithError => simp
  | halt | terminate => simp
  | read => simp
  | _ => simp [hr]

/-- A step leaves the exit code of the run state it leaves, and the old one where the run goes on. -/
theorem step_exitCode (h : step s = .next t) : t.exitCode = t.runState.expectedExit.or s.exitCode := by
  cases step_cases h with
  | offTheEnd => simp
  | invalid => simp
  | instr i _ hr _ _ hexec => exact exec_exitCode (s := afterFetch s) hexec hr
  | answered => simp

end Sys2Proof.Machine
end

section
open Sys2Proof Sys2Proof.Machine

/-- Settles O12: a step that ends the run sets the exit code of the run state it leaves, so each clause reads
one entry of R98's table. -/
theorem exitCodeOfEveryEnd : Obligations.ExitCodeOfEveryEnd := by
  refine fun s t h => ⟨fun hend => ?_, fun hend => ?_, fun hend => ?_, fun hend => ?_, fun hend => ?_⟩ <;>
    rw [step_exitCode h, hend] <;> rfl

end

section
/-! SUPPORT. The decoder inverted: what a word that decodes tells about its two fields. -/

namespace Sys2Proof

open Laws.EncodeFields

variable {i : Instr} {w : Word}

/-- A word that decodes has its instruction's opcode and operand in its fields (30_encoding.md R56, R59). -/
theorem fields_of_decode (h : decode w = .ok i) :
    (opcodeField w).toNat = opcodeOf i ∧ operandField w = i.operand := by
  unfold decode at h
  split at h
  case h_15 => cases h
  all_goals
    rename_i hopcode
    cases h
    exact ⟨hopcode, rfl⟩

/-- The encoder puts the opcode and the operand next to each other (30_encoding.md R56). -/
theorem encode_eq_wordOf (i : Instr) : encode i = wordOf (BitVec.ofNat 8 (opcodeOf i)) i.operand := by
  cases i <;> rfl

/-- No bit is dropped: both fields of a word that decodes are in what it decodes to (30_encoding.md R62). -/
theorem encode_of_decode (h : decode w = .ok i) : encode i = w := by
  obtain ⟨hopcode, hoperand⟩ := fields_of_decode h
  rw [encode_eq_wordOf, ← hopcode, ← hoperand, BitVec.ofNat_toNat, BitVec.setWidth_eq, wordOf_fields]

end Sys2Proof

namespace Sys2Proof.Machine

open Laws.EncodeFields

variable {i : Instr} {s : State}

/-- After the fetch of a word that decodes, OPC holds the opcode of its instruction (40_cycle.md R67). -/
theorem afterFetch_opc_of_decode (h : decode (fetchedWord s) = .ok i) :
    (afterFetch s).opc = BitVec.ofNat 20 (opcodeOf i) := by
  rw [afterFetch_opc, ← opcodeField_toNat, (fields_of_decode h).1]

/-- After the fetch of a word that decodes, OPR holds the operand of its instruction (40_cycle.md R67). -/
theorem afterFetch_opr_of_decode (h : decode (fetchedWord s) = .ok i) :
    (afterFetch s).opr.toNat = i.operand.toNat := by
  rw [afterFetch_opr_toNat, ← operandField_toNat, (fields_of_decode h).2]

end Sys2Proof.Machine
end

section
open Sys2Proof Sys2Proof.Machine

/-- Settles O1: the decoder reads back the two fields that the encoder put together. -/
theorem decodeOfEncodeIsIdentity : Obligations.DecodeOfEncodeIsIdentity :=
  decode_encode

/-- Settles O2: a word is made of its two fields, and both are in what it decodes to. -/
theorem decodedWordReencodes : Obligations.DecodedWordReencodes :=
  fun _ _ h => encode_of_decode h

/-- Settles O3: each row of the map is the number of its instruction's word. -/
theorem opcodeMapDecodes : Obligations.OpcodeMapDecodes :=
  fun a => ⟨decode_ofNat (.read a), decode_ofNat (.write a), decode_ofNat (.newline a), decode_ofNat (.load a),
    decode_ofNat (.store a), decode_ofNat (.add a), decode_ofNat (.subtract a), decode_ofNat (.divide a),
    decode_ofNat (.multiply a), decode_ofNat (.branch a), decode_ofNat (.branchneg a),
    decode_ofNat (.branchzero a), decode_ofNat (.halt a), decode_ofNat (.terminate a)⟩

/-- Settles O5: the first eight words are encodings, and the opcodes of the last two are in R60's list. -/
theorem sampleWordsDecode : Obligations.SampleWordsDecode :=
  ⟨decode_encode (.load 5), decode_encode (.load 999), decode_encode (.store 7), decode_encode (.read 50),
    decode_encode (.divide 51), decode_encode (.branchzero 8), decode_encode (.newline 0xFFF),
    decode_encode (.terminate 0xFFF), (decode_eq_invalidOpcode_iff _).mpr (by decide),
    (decode_eq_invalidOpcode_iff _).mpr (by decide)⟩

end

section
/-! SUPPORT. What keeps the invariant of the machine: the fetch, and each shared operation of the instructions,
in a run that is going on. -/

namespace Sys2Proof.Machine

variable {s : State}

/-! ### The invariant in a running state -/

/-- In RUNNING the clauses about the other run states say nothing. -/
theorem inv_of_running (hr : s.runState = .running) (hmem : s.mem.wf = true)
    (hopc : s.opc.toNat = s.ir.toNat / 4096) (hopr : s.opr.toNat = s.ir.toNat % 4096)
    (hic : s.ic.toNat ≤ 1000) (hexit : s.exitCode = none) (hpending : s.inputPending = false)
    (hrequests : s.output.count .prompt = s.inputRequests) : s.Inv where
  mem_wf := hmem
  opc_field := hopc
  opr_field := hopr
  ic_le := hic
  exit_code := by rw [hexit, hr]; rfl
  pending_iff := by simp [hpending, hr]
  requests_prompted := hrequests
  fresh := by simp [hr]
  waiting := by simp [hr]
  halted := by simp [hr]
  aborted := by simp [hr]

theorem State.Inv.exitCode_of_running (hs : s.Inv) (hr : s.runState = .running) : s.exitCode = none := by
  rw [hs.exit_code, hr]
  rfl

theorem State.Inv.inputPending_of_running (hs : s.Inv) (hr : s.runState = .running) :
    s.inputPending = false := by
  simpa [hr] using hs.pending_iff

/-- The fetch and the decode set up the fields of the fetched word. -/
theorem afterFetch_inv (hs : s.Inv) (hr : s.runState = .running) : (afterFetch s).Inv :=
  inv_of_running hr hs.mem_wf (afterFetch_opc_toNat s) (afterFetch_opr_toNat s) hs.ic_le
    (hs.exitCode_of_running hr) (hs.inputPending_of_running hr) hs.requests_prompted

/-! ### The run goes on -/

theorem advance_inv (hs : s.Inv) (hr : s.runState = .running) (hic : s.ic.toNat < 1000) :
    (advance s).Inv := by
  have hnext : (s.ic + 1).toNat ≤ 1000 := by bv_omega
  exact inv_of_running hr hs.mem_wf hs.opc_field hs.opr_field hnext (hs.exitCode_of_running hr)
    (hs.inputPending_of_running hr) hs.requests_prompted

theorem jump_inv {a : Operand} (hs : s.Inv) (hr : s.runState = .running) (ha : a.toNat < 1000) :
    (jump a s).Inv := by
  have htarget : (a.setWidth 20).toNat ≤ 1000 := by bv_omega
  exact inv_of_running hr hs.mem_wf hs.opc_field hs.opr_field htarget (hs.exitCode_of_running hr)
    (hs.inputPending_of_running hr) hs.requests_prompted

theorem set_acc_inv (v : Word) (hs : s.Inv) (hr : s.runState = .running) : (s.set .acc v).Inv :=
  inv_of_running hr hs.mem_wf hs.opc_field hs.opr_field hs.ic_le (hs.exitCode_of_running hr)
    (hs.inputPending_of_running hr) hs.requests_prompted

theorem store_inv {a : Nat} (v : Word) (hs : s.Inv) (hr : s.runState = .running) (ha : a < 1000) :
    (s.store a v).Inv :=
  inv_of_running hr (Memory.wf_write v hs.mem_wf ha) hs.opc_field hs.opr_field hs.ic_le
    (hs.exitCode_of_running hr) (hs.inputPending_of_running hr) hs.requests_prompted

/-- An event that is no prompt leaves the count of prompts. -/
theorem emit_inv {e : Event} (he : e ≠ .prompt) (hs : s.Inv) (hr : s.runState = .running) :
    (emit e s).Inv := by
  have hcount : (s.output ++ [e]).count .prompt = s.inputRequests := by
    rw [List.count_append, List.count_singleton, hs.requests_prompted]
    simp [he]
  exact inv_of_running hr hs.mem_wf hs.opc_field hs.opr_field hs.ic_le (hs.exitCode_of_running hr)
    (hs.inputPending_of_running hr) hcount

/-! ### The run waits, or ends -/

/-- A READ whose word is in IR starts its wait: one prompt and one request (41_io.md R77). -/
theorem requestInput_prompt_inv (hs : s.Inv) (hr : s.runState = .running) (hic : s.ic.toNat < 1000)
    (hir : s.mem.read s.ic.toNat = s.ir) (hopc : s.opc = 0x10) (hopr : s.opr.toNat < 1000) :
    (requestInput (emit .prompt s)).Inv where
  mem_wf := hs.mem_wf
  opc_field := hs.opc_field
  opr_field := hs.opr_field
  ic_le := hs.ic_le
  exit_code := hs.exitCode_of_running hr
  pending_iff := by simp
  requests_prompted := by simp [hs.requests_prompted]
  fresh := by simp
  waiting := fun _ => ⟨Nat.le_of_lt_succ hic, hir, hopc, Nat.le_of_lt_succ hopr⟩
  halted := by simp
  aborted := by simp

/-- The run ends past the memory, or at a HALT or TERMINATE whose word is in IR (40_cycle.md R72). -/
theorem finish_inv (hs : s.Inv) (hr : s.runState = .running)
    (hend : s.ic.toNat = 1000 ∨ (s.mem.read s.ic.toNat = s.ir ∧ (s.opc = 0x43 ∨ s.opc = 0xFF))) :
    (finish s).Inv where
  mem_wf := hs.mem_wf
  opc_field := hs.opc_field
  opr_field := hs.opr_field
  ic_le := hs.ic_le
  exit_code := rfl
  pending_iff := by simp [hs.inputPending_of_running hr]
  requests_prompted := hs.requests_prompted
  fresh := by simp
  waiting := by simp
  halted := fun _ => hend
  aborted := by simp

/-- An error ends the run at the instruction in IR, with the dump of the final state (60_exceptions.md R102). -/
theorem raise_inv (k : ErrorKind) (hs : s.Inv) (hr : s.runState = .running) (hic : s.ic.toNat < 1000)
    (hir : s.mem.read s.ic.toNat = s.ir) : (raise k s).Inv where
  mem_wf := hs.mem_wf
  opc_field := hs.opc_field
  opr_field := hs.opr_field
  ic_le := hs.ic_le
  exit_code := (expectedExit_aborted k).symm
  pending_iff := by simp [hs.inputPending_of_running hr]
  requests_prompted := by simp [hs.requests_prompted]
  fresh := by simp
  waiting := by simp
  halted := by simp
  aborted := by
    intro k' hk
    obtain rfl : k = k' := by simpa using hk
    rw [raise_output]
    exact ⟨Nat.le_of_lt_succ hic, hir, List.suffix_append ..⟩

/-! ### A whole step -/

/-- The execution of the fetched instruction keeps the invariant. -/
theorem exec_afterFetch_inv {i : Instr} {t : State} (hs : s.Inv) (hr : s.runState = .running)
    (hic : s.ic.toNat < 1000) (hd : decode (fetchedWord s) = .ok i) (h : exec i (afterFetch s) = .next t) :
    t.Inv := by
  have hf : (afterFetch s).Inv := afterFetch_inv hs hr
  have hopc := afterFetch_opc_of_decode hd
  cases exec_cases h with
  | badAddress => exact raise_inv _ hf hr hic rfl
  | read a hi ha =>
    subst hi
    exact requestInput_prompt_inv hf hr hic rfl hopc (afterFetch_opr_of_decode hd ▸ ha)
  | write => exact advance_inv (emit_inv nofun hf hr) hr hic
  | newline => exact advance_inv (emit_inv nofun hf hr) hr hic
  | load => exact advance_inv (set_acc_inv _ hf hr) hr hic
  | store _ _ ha => exact advance_inv (store_inv _ hf hr ha) hr hic
  | arithError => exact raise_inv _ hf hr hic rfl
  | arithResult => exact advance_inv (set_acc_inv _ hf hr) hr hic
  | taken _ _ ha => exact jump_inv hf hr ha
  | notTaken => exact advance_inv hf hr hic
  | halt x hi =>
    subst hi
    exact finish_inv (emit_inv nofun (emit_inv nofun hf hr) hr) hr (.inr ⟨rfl, .inl hopc⟩)
  | terminate x hi =>
    subst hi
    exact finish_inv hf hr (.inr ⟨rfl, .inr hopc⟩)

/-- The second step of READ runs again with the host's word stored (41_io.md R77). -/
theorem answered_inv (w : Word) (ws : List Word) (hs : s.Inv) (hw : s.runState = .waitInput)
    (hopr : s.opr.toNat < 1000) : (advance (acceptInput ws (s.store s.opr.toNat w))).Inv := by
  obtain ⟨hic, -⟩ := hs.waiting hw
  have hexit : s.exitCode = none := by rw [hs.exit_code, hw]; rfl
  have hrunning : (acceptInput ws (s.store s.opr.toNat w)).Inv :=
    inv_of_running rfl (Memory.wf_write w hs.mem_wf hopr) hs.opc_field hs.opr_field hs.ic_le hexit rfl
      hs.requests_prompted
  exact advance_inv hrunning rfl (Nat.lt_succ_of_le hic)

theorem step_inv {t : State} (hs : s.Inv) (h : step s = .next t) : t.Inv := by
  cases step_cases h with
  | offTheEnd hr hend => exact finish_inv hs hr (.inl (Nat.le_antisymm hs.ic_le hend))
  | invalid hr hic => exact raise_inv _ (afterFetch_inv hs hr) hr hic rfl
  | instr i _ hr hic hd hexec => exact exec_afterFetch_inv hs hr hic hd hexec
  | answered w ws hw _ hopr => exact answered_inv w ws hs hw hopr

/-! ### The host -/

theorem reset_inv : State.reset.Inv where
  mem_wf := rfl
  opc_field := rfl
  opr_field := rfl
  ic_le := Nat.zero_le 1000
  exit_code := rfl
  pending_iff := by simp [State.reset]
  requests_prompted := rfl
  fresh := fun _ => ⟨rfl, rfl, rfl, rfl⟩
  waiting := nofun
  halted := nofun
  aborted := nofun

/-- A preload changes only the memory, and before the start no clause but the first is about it. -/
theorem hostPreload_inv {t : State} {a : Nat} {w : Word} (hs : s.Inv) (h : hostPreload a w s = some t) :
    t.Inv := by
  obtain ⟨hn, ha, rfl⟩ := hostPreload_eq_some.mp h
  exact { hs with
    mem_wf := Memory.wf_write w hs.mem_wf ha
    waiting := by simp [hn]
    halted := by simp [hn]
    aborted := by simp [hn] }

theorem hostStart_inv {t : State} (hs : s.Inv) (h : hostStart s = some t) : t.Inv := by
  obtain ⟨hn, rfl⟩ := hostStart_eq_some.mp h
  have hexit : s.exitCode = none := by rw [hs.exit_code, hn]; rfl
  have hpending : s.inputPending = false := by simpa [hn] using hs.pending_iff
  exact inv_of_running rfl hs.mem_wf hs.opc_field hs.opr_field hs.ic_le hexit hpending hs.requests_prompted

/-- No clause is about the host's words to come. -/
theorem answers_inv (ws : List Word) (hs : s.Inv) : State.Inv { s with answers := ws } :=
  { hs with }

theorem hostAnswer_inv {t : State} {w : Word} (hs : s.Inv) (h : hostAnswer w s = some t) : t.Inv := by
  obtain ⟨-, -, rfl⟩ := hostAnswer_eq_some.mp h
  exact answers_inv [w] hs

end Sys2Proof.Machine
end

section
open Sys2Proof Sys2Proof.Machine

/-- Settles O16: each way a step can go is made of operations that keep the invariant. -/
theorem stepKeepsInv : Obligations.StepKeepsInv :=
  fun _ _ hs h => step_inv hs h

/-- Settles O17. -/
theorem resetSatisfiesInv : Obligations.ResetSatisfiesInv :=
  reset_inv

/-- Settles O18: each transaction of the host keeps the invariant. -/
theorem hostTransactionsKeepInv : Obligations.HostTransactionsKeepInv := by
  rintro s t hs (⟨a, w, h⟩ | h | ⟨w, h⟩ | rfl | ⟨ws, rfl⟩)
  · exact hostPreload_inv hs h
  · exact hostStart_inv hs h
  · exact hostAnswer_inv hs h
  · exact reset_inv
  · exact answers_inv ws hs

/-- Settles O19, by induction over the run: reset meets the invariant, the engine and the host keep it. -/
theorem reachableStatesSatisfyInv : Obligations.ReachableStatesSatisfyInv := by
  intro s hs
  induction hs with
  | reset => exact reset_inv
  | preload _ h ih => exact hostPreload_inv ih h
  | start _ h ih => exact hostStart_inv ih h
  | answer _ h ih => exact hostAnswer_inv ih h
  | words _ ih => exact answers_inv _ ih
  | engine _ h ih => exact step_inv ih h

end

section
/-! SUPPORT. When the engine has a step and when it has none, the steps of the end of memory and of READ, and the
windows of the host's transactions. -/

namespace Sys2Proof.Machine

variable {s t : State} {w : Word}

/-! ### Steps that are taken -/

/-- The end test finds IC past the memory (40_cycle.md R65, R72). -/
theorem step_of_end (hr : s.runState = .running) (hic : 1000 ≤ s.ic.toNat) : step s = .next (finish s) := by
  rw [step_running hr, cycle_end hic]

/-- READ with a valid operand prompts, requests one word and waits (41_io.md R77). -/
theorem exec_read_valid {a : Operand} (s : State) (ha : a.toNat < 1000) :
    exec (.read a) s = .next (requestInput (emit .prompt s)) := by
  rw [exec_read, withAddress_valid s _ ha]

/-- The second step of READ stores the host's word at OPR and advances (41_io.md R77). -/
theorem finishRead_valid (w : Word) (ws : List Word) (hopr : s.opr.toNat < 1000) :
    finishRead w ws s = .next (advance (acceptInput ws (s.store s.opr.toNat w))) :=
  if_pos hopr

/-- Where OPR is no address the second step of READ has nowhere to store the word (log 13). -/
theorem finishRead_invalid (w : Word) (ws : List Word) (hopr : 1000 ≤ s.opr.toNat) :
    finishRead w ws s = .fault .noSuchAddress :=
  if_neg (Nat.not_lt.mpr hopr)

/-- Once the host has answered, the step is the second of READ (20_memory.md R51). -/
theorem step_of_answered {ws : List Word} (hw : s.runState = .waitInput) (hws : s.answers = w :: ws) :
    step s = finishRead w ws s := by
  simp [step, engineStep, hw, hws]

theorem step_of_answered_valid {ws : List Word} (hw : s.runState = .waitInput) (hws : s.answers = w :: ws)
    (hopr : s.opr.toNat < 1000) :
    step s = .next (advance (acceptInput ws (s.store s.opr.toNat w))) := by
  rw [step_of_answered hw hws, finishRead_valid w ws hopr]

theorem step_next_of_running (hr : s.runState = .running) : ∃ t, step s = .next t := by
  rcases Nat.lt_or_ge s.ic.toNat 1000 with hic | hic
  · exact step_next_of_fetch hr hic
  · exact ⟨_, step_of_end hr hic⟩

/-! ### No step -/

theorem step_of_notStarted (hn : s.runState = .notStarted) : step s = .fault .notStarted := by
  simp [step, engineStep, hn]

theorem step_of_no_answer (hw : s.runState = .waitInput) (hws : s.answers = []) :
    step s = .fault .awaitingInput := by
  simp [step, engineStep, hw, hws]

/-- The two terminal run states (40_cycle.md R74). -/
theorem step_of_terminal (ht : s.runState = .halted ∨ ∃ k, s.runState = .aborted k) :
    step s = .fault .runEnded := by
  rcases ht with ht | ⟨k, ht⟩ <;> simp [step, engineStep, ht]

theorem finishRead_ne_refused (w : Word) (ws : List Word) (s : State) (r : Refusal) :
    finishRead w ws s ≠ .refused r := by
  rcases Nat.lt_or_ge s.opr.toNat 1000 with hopr | hopr
  · simp [finishRead_valid w ws hopr]
  · simp [finishRead_invalid w ws hopr]

theorem step_ne_refused (s : State) (r : Refusal) : step s ≠ .refused r := by
  cases hs : s.runState with
  | notStarted => simp [step_of_notStarted hs]
  | running =>
    obtain ⟨t, h⟩ := step_next_of_running hs
    simp [h]
  | waitInput =>
    cases hws : s.answers with
    | nil => simp [step_of_no_answer hs hws]
    | cons w ws => exact step_of_answered hs hws ▸ finishRead_ne_refused w ws s r
  | halted => simp [step_of_terminal (.inl hs)]
  | aborted k => simp [step_of_terminal (.inr ⟨k, hs⟩)]

/-! ### Outside the windows of the host (20_memory.md R48; log 17) -/

theorem hostPreload_of_started (a : Nat) (w : Word) (hn : s.runState ≠ .notStarted) :
    hostPreload a w s = none :=
  if_neg fun h => hn h.1

theorem hostStart_of_started (hn : s.runState ≠ .notStarted) : hostStart s = none :=
  if_neg hn

theorem hostAnswer_of_not_waiting (w : Word) (hw : s.runState ≠ .waitInput) : hostAnswer w s = none :=
  if_neg fun h => hw h.1

/-! ### The run state after a step -/

/-- A completed instruction goes on; READ waits; the others end the run (40_cycle.md R70). -/
theorem exec_runState {i : Instr} (h : exec i s = .next t) (hr : s.runState = .running) :
    t.runState = .running ∨ t.runState = .halted ∨ (∃ k, t.runState = .aborted k) ∨
    (t.runState = .waitInput ∧ ∃ a : Operand, i = .read a ∧ a.toNat < 1000) := by
  cases exec_cases h with
  | badAddress | arithError => exact .inr (.inr (.inl ⟨_, rfl⟩))
  | halt | terminate => exact .inr (.inl rfl)
  | read a hi ha => exact .inr (.inr (.inr ⟨rfl, a, hi, ha⟩))
  | _ => exact .inl hr

/-- How a cycle moves the run state (40_cycle.md R73). -/
theorem step_runState_of_running (h : step s = .next t) (hr : s.runState = .running) :
    t.runState = .running ∨ t.runState = .halted ∨ (∃ k, t.runState = .aborted k) ∨
    (t.runState = .waitInput ∧ ∃ a : Operand, decode (fetchedWord s) = .ok (.read a) ∧ a.toNat < 1000) := by
  cases step_cases h with
  | offTheEnd => exact .inr (.inl rfl)
  | invalid => exact .inr (.inr (.inl ⟨_, rfl⟩))
  | instr i _ _ _ hd hexec =>
    rcases exec_runState hexec hr with ht | ht | ht | ⟨ht, a, rfl, ha⟩
    · exact .inl ht
    · exact .inr (.inl ht)
    · exact .inr (.inr (.inl ht))
    · exact .inr (.inr (.inr ⟨ht, a, hd, ha⟩))
  | answered _ _ hw => simp [hr] at hw

/-- Everything the second step of READ needed and left. -/
theorem step_waiting_cases (h : step s = .next t) (hw : s.runState = .waitInput) :
    ∃ w ws, s.answers = w :: ws ∧ s.opr.toNat < 1000 ∧
      t = advance (acceptInput ws (s.store s.opr.toNat w)) := by
  cases step_cases h with
  | answered w ws _ hws hopr => exact ⟨w, ws, hws, hopr, rfl⟩
  | offTheEnd hr | invalid hr | instr _ _ hr => simp [hw] at hr

theorem runState_of_step (h : step s = .next t) : s.runState = .running ∨ s.runState = .waitInput := by
  cases step_cases h with
  | answered _ _ hw => exact .inr hw
  | offTheEnd hr | invalid hr | instr _ _ hr => exact .inl hr

end Sys2Proof.Machine
end

section
open Sys2Proof Sys2Proof.Machine

/-- Settles O6. -/
theorem stepRunsDecodedInstruction : Obligations.StepRunsDecodedInstruction :=
  fun _ _ hr hic hd => step_of_decode_ok hr hic hd

/-- Settles O9. -/
theorem endOfMemoryHalts : Obligations.EndOfMemoryHalts :=
  fun _ hr hic => step_of_end hr hic

/-- Settles O10: a cycle always answers, and the second step of READ needs the host's word and an address. -/
theorem engineStepsExactlyWhen : Obligations.EngineStepsExactlyWhen := by
  refine ⟨fun s => ⟨?_, ?_⟩, fun _ hn => step_of_notStarted hn, fun _ hw hws => step_of_no_answer hw hws⟩
  · rintro ⟨t, h⟩
    refine (runState_of_step h).imp_right fun hw => ?_
    obtain ⟨w, ws, hws, hopr, -⟩ := step_waiting_cases h hw
    exact ⟨hw, hws ▸ List.cons_ne_nil w ws, hopr⟩
  · rintro (hr | ⟨hw, hws, hopr⟩)
    · exact step_next_of_running hr
    · obtain ⟨w, ws, hws⟩ := List.exists_cons_of_ne_nil hws
      exact ⟨_, step_of_answered_valid hw hws hopr⟩

/-- Settles O11: both terminal run states are outside every window of the engine and the host. -/
theorem terminalStatesHaveNoStep : Obligations.TerminalStatesHaveNoStep := by
  intro s ht
  have hn : s.runState ≠ .notStarted := by rcases ht with ht | ⟨k, ht⟩ <;> simp [ht]
  have hw : s.runState ≠ .waitInput := by rcases ht with ht | ⟨k, ht⟩ <;> simp [ht]
  exact ⟨step_of_terminal ht, fun a w => hostPreload_of_started a w hn, hostStart_of_started hn,
    fun w => hostAnswer_of_not_waiting w hw, rfl⟩

/-- Settles O13, from how a cycle and how the second step of READ move the run state. -/
theorem runStateMoves : Obligations.RunStateMoves := by
  intro s t h
  rcases runState_of_step h with hr | hw
  · rcases step_runState_of_running h hr with ht | ht | ⟨k, ht⟩ | ⟨ht, hread⟩
    · simp [hr, ht]
    · simp [hr, ht]
    · simp [hr, ht]
    · exact ⟨by simp [ht], by simp [hr], fun _ => ⟨hr, hread⟩⟩
  · obtain ⟨w, ws, -, -, rfl⟩ := step_waiting_cases h hw
    exact ⟨nofun, fun _ => rfl, nofun⟩

/-- Settles O14. -/
theorem execAnswersForEveryInstruction : Obligations.ExecAnswersForEveryInstruction :=
  ⟨exec_next, step_ne_refused⟩

/-- Settles O15: the first step is READ's execution after the fetch, which put the operand into OPR, where the
second step stores the word. -/
theorem readTakesTwoSteps : Obligations.ReadTakesTwoSteps := by
  intro s a w ws hr hic hd ha hws hwf
  have hopr : (afterFetch s).opr.toNat = a.toNat := afterFetch_opr_of_decode hd
  have hfirst : step s = .next (requestInput (emit .prompt (afterFetch s))) := by
    rw [step_of_decode_ok hr hic hd, exec_read_valid _ ha]
  have hsecond :=
    step_of_answered_valid (s := requestInput (emit .prompt (afterFetch s))) rfl hws (hopr ▸ ha)
  refine ⟨_, _, hfirst, rfl, rfl, rfl, rfl, rfl, hsecond, rfl, rfl, rfl, ?_, fun b hb => ?_, rfl, rfl, rfl, rfl⟩
  · exact hopr ▸ Memory.read_write_same hwf _ w
  · exact Memory.read_write_other s.mem _ w (hopr ▸ hb)

/-- Settles O35: the operand check and the first step of READ, the window of the host's answer, and the second
step with its one write. -/
theorem readWaitsThenStoresTheWord : Obligations.ReadWaitsThenStoresTheWord := by
  refine ⟨fun a s => ⟨decode_ofNat (.read a), fun ha => ?_, fun ha => exec_read_valid s ha⟩,
    fun s w hw hws => hostAnswer_eq_some.mpr ⟨hw, hws, rfl⟩, fun s w hw => hostAnswer_of_not_waiting w hw,
    fun s w ws hw hws hopr hwf => ?_⟩
  · rw [exec_read, withAddress_eq_afterError s _ ha]
  · exact ⟨_, step_of_answered_valid hw hws hopr, rfl, Memory.read_write_same hwf _ w,
      fun b hb => Memory.read_write_other s.mem _ w hb⟩

end

section
/-! SUPPORT. Which errors an instruction and a cycle raise, and exactly when (60_exceptions.md R97, R100). -/

namespace Sys2Proof.Machine

variable {i : Instr} {s t : State} {k : ErrorKind}

/-- When an instruction raises each error (40_cycle.md R69, 43_arithmetic.md R86 to R89). -/
inductive ExecRaises (i : Instr) (s : State) : ErrorKind → Prop
  | badAddress : i.kind ≠ .ignored → 1000 ≤ i.operand.toNat → ExecRaises i s .addressOutOfRange
  | zeroDivisor (a : Operand) : i = .divide a → a.toNat < 1000 → (s.mem.read a.toNat).toNat = 0 →
      ExecRaises i s .divideByZero
  | sumTooLarge (a : Operand) : i = .add a → a.toNat < 1000 →
      0xFFFFF < s.acc.toNat + (s.mem.read a.toNat).toNat → ExecRaises i s .accumulatorOverflow
  | differenceNegative (a : Operand) : i = .subtract a → a.toNat < 1000 →
      s.acc.toNat < (s.mem.read a.toNat).toNat → ExecRaises i s .accumulatorOverflow
  | productTooLarge (a : Operand) : i = .multiply a → a.toNat < 1000 →
      0xFFFFF < s.acc.toNat * (s.mem.read a.toNat).toNat → ExecRaises i s .accumulatorOverflow

/-- Every instruction whose operand is an address or a target begins with the operand check (40_cycle.md R69). -/
theorem exec_eq_withAddress (s : State) (hk : i.kind ≠ .ignored) :
    ∃ rule, exec i s = withAddress i.operand s rule := by
  cases i with
  | newline | halt | terminate => exact absurd rfl hk
  | read a => exact ⟨_, exec_read a s⟩
  | write a => exact ⟨_, exec_write a s⟩
  | load a => exact ⟨_, exec_load a s⟩
  | store a => exact ⟨_, exec_store a s⟩
  | add a => exact ⟨_, exec_add a s⟩
  | subtract a => exact ⟨_, exec_subtract a s⟩
  | divide a => exact ⟨_, exec_divide a s⟩
  | multiply a => exact ⟨_, exec_multiply a s⟩
  | branch a => exact ⟨_, exec_branch a s⟩
  | branchneg a => exact ⟨_, exec_branchneg a s⟩
  | branchzero a => exact ⟨_, exec_branchzero a s⟩

/-- The operand check fails whatever the instruction, a branch that would not be taken included. -/
theorem exec_badAddress (s : State) (hk : i.kind ≠ .ignored) (ha : 1000 ≤ i.operand.toNat) :
    exec i s = .next (afterError s .addressOutOfRange Config.oorExitCode) := by
  obtain ⟨rule, h⟩ := exec_eq_withAddress s hk
  rw [h, withAddress_eq_afterError s rule ha]

theorem exec_of_raises (h : ExecRaises i s k) : exec i s = .next (afterError s k (exitCodeOf k)) := by
  cases h with
  | badAddress hk ha => exact exec_badAddress s hk ha
  | zeroDivisor a hi ha hz =>
    subst hi
    exact exec_arith_error (.divide a) ha ((alu_divide _ _).trans (if_pos hz))
  | sumTooLarge a hi ha ho =>
    subst hi
    exact exec_arith_error (.add a) ha ((alu_add _ _).trans (if_neg (Nat.not_le.mpr ho)))
  | differenceNegative a hi ha ho =>
    subst hi
    exact exec_arith_error (.subtract a) ha ((alu_subtract _ _).trans (if_neg (Nat.not_le.mpr ho)))
  | productTooLarge a hi ha ho =>
    subst hi
    exact exec_arith_error (.multiply a) ha ((alu_multiply _ _).trans (if_neg (Nat.not_le.mpr ho)))

/-- The errors of the ALU are those of its four operations, and no others. -/
theorem raises_of_alu_error {op : AluOp} {a : Operand} (hi : IsArith i op a) (ha : a.toNat < 1000)
    (hk : alu op s.acc (s.mem.read a.toNat) = .error k) : ExecRaises i s k := by
  cases hi with
  | add =>
    rw [alu_add] at hk
    split at hk <;> cases hk
    next ho => exact .sumTooLarge a rfl ha (Nat.not_le.mp ho)
  | subtract =>
    rw [alu_subtract] at hk
    split at hk <;> cases hk
    next ho => exact .differenceNegative a rfl ha (Nat.not_le.mp ho)
  | divide =>
    rw [alu_divide] at hk
    split at hk <;> cases hk
    next hz => exact .zeroDivisor a rfl ha hz
  | multiply =>
    rw [alu_multiply] at hk
    split at hk <;> cases hk
    next ho => exact .productTooLarge a rfl ha (Nat.not_le.mp ho)

/-- An instruction of a run ends it ABORTED(k) exactly when it raises `k`. -/
theorem exec_aborted_iff (h : exec i s = .next t) (hr : s.runState = .running) :
    t.runState = .aborted k ↔ ExecRaises i s k := by
  constructor
  · intro ht
    cases exec_cases h with
    | badAddress hk ha =>
      obtain rfl : .addressOutOfRange = k := by simpa using ht
      exact .badAddress hk ha
    | arithError op a e hi ha he =>
      obtain rfl : e = k := by simpa using ht
      exact raises_of_alu_error hi ha he
    | _ => simp [hr] at ht
  · intro hx
    rw [exec_of_raises hx] at h
    cases h
    rfl

/-- A cycle that fetches ends ABORTED(k) exactly when its word is invalid, or its instruction raises `k`
(60_exceptions.md R100). -/
theorem step_aborted_iff (h : step s = .next t) (hr : s.runState = .running) (hic : s.ic.toNat < 1000) :
    t.runState = .aborted k ↔
      (k = .invalidOpcode ∧ decode (fetchedWord s) = .error .invalidOpcode) ∨
      ∃ i, decode (fetchedWord s) = .ok i ∧ ExecRaises i (afterFetch s) k := by
  cases hd : decode (fetchedWord s) with
  | error e =>
    cases e
    rw [step_of_decode_invalidOpcode hr hic hd] at h
    cases h
    simp [eq_comm]
  | ok i =>
    rw [step_of_decode_ok hr hic hd] at h
    simp [exec_aborted_iff h hr]

/-- A step that ends in ABORTED(k) fetched, and left R102 at the state after the fetch. -/
theorem step_aborted_cases (h : step s = .next t) (ht : t.runState = .aborted k) :
    t = afterError (afterFetch s) k (exitCodeOf k) := by
  cases step_cases h with
  | offTheEnd => simp at ht
  | invalid =>
    obtain rfl : .invalidOpcode = k := by simpa using ht
    exact raise_eq_afterError _ _
  | instr i _ hr _ _ hexec =>
    rw [exec_of_raises ((exec_aborted_iff hexec hr).mp ht)] at hexec
    cases hexec
    rfl
  | answered => simp at ht

end Sys2Proof.Machine
end

section
open Sys2Proof Sys2Proof.Machine

/-- Settles O8. -/
theorem operandAboveMemoryEndsTheRun : Obligations.OperandAboveMemoryEndsTheRun :=
  fun _ s hk ha => exec_badAddress s hk ha

/-- Settles O20: an error is raised at the state after the fetch, whatever raised it. -/
theorem errorsArePrecise : Obligations.ErrorsArePrecise := by
  intro s t k h ht
  obtain rfl := step_aborted_cases h ht
  exact ⟨_, rfl, fun _ => rfl, rfl, rfl⟩

/-- Settles O21: the causes of each error are read off the cases of `ExecRaises` with that kind. -/
theorem eachErrorExactlyWhen : Obligations.EachErrorExactlyWhen := by
  intro s t hr hic h
  have hiff := fun k => step_aborted_iff (k := k) h hr hic
  refine ⟨(hiff _).trans ⟨?_, ?_⟩, (hiff _).trans ⟨?_, ?_⟩, (hiff _).trans ⟨?_, ?_⟩, (hiff _).trans ⟨?_, ?_⟩⟩
  · rintro (⟨-, hd⟩ | ⟨i, -, hx⟩)
    · exact (decode_eq_invalidOpcode_iff _).mp hd
    · cases hx
  · exact fun hw => .inl ⟨rfl, (decode_eq_invalidOpcode_iff _).mpr hw⟩
  · rintro (⟨hk, -⟩ | ⟨i, hd, hx⟩)
    · cases hk
    · cases hx with
      | badAddress hkind ha => exact ⟨i, hd, hkind, ha⟩
  · rintro ⟨i, hd, hkind, ha⟩
    exact .inr ⟨i, hd, .badAddress hkind ha⟩
  · rintro (⟨hk, -⟩ | ⟨i, hd, hx⟩)
    · cases hk
    · cases hx with
      | zeroDivisor a hi ha hz => exact ⟨a, hi ▸ hd, ha, hz⟩
  · rintro ⟨a, hd, ha, hz⟩
    exact .inr ⟨_, hd, .zeroDivisor a rfl ha hz⟩
  · rintro (⟨hk, -⟩ | ⟨i, hd, hx⟩)
    · cases hk
    · cases hx with
      | sumTooLarge a hi ha ho => exact ⟨a, ha, .inl ⟨hi ▸ hd, ho⟩⟩
      | differenceNegative a hi ha ho => exact ⟨a, ha, .inr (.inl ⟨hi ▸ hd, ho⟩)⟩
      | productTooLarge a hi ha ho => exact ⟨a, ha, .inr (.inr ⟨hi ▸ hd, ho⟩)⟩
  · rintro ⟨a, ha, ⟨hd, ho⟩ | ⟨hd, ho⟩ | ⟨hd, ho⟩⟩
    · exact .inr ⟨_, hd, .sumTooLarge a rfl ha ho⟩
    · exact .inr ⟨_, hd, .differenceNegative a rfl ha ho⟩
    · exact .inr ⟨_, hd, .productTooLarge a rfl ha ho⟩

end

section
/-! SUPPORT. What an instruction and a step do to ACC, IC and the output, and the frames that all instructions
share. -/

namespace Sys2Proof.Machine

variable {i : Instr} {s t : State}

/-! ### The accumulator -/

/-- The instructions that write ACC (10_state.md R17). -/
theorem exec_acc (h : exec i s = .next t) :
    t.acc = s.acc ∨ ∃ a : Operand, a.toNat < 1000 ∧
      (i = .load a ∨ i = .add a ∨ i = .subtract a ∨ i = .divide a ∨ i = .multiply a) := by
  cases exec_cases h with
  | load a hi ha => exact .inr ⟨a, ha, .inl hi⟩
  | arithResult op a v hi ha => exact .inr ⟨a, ha, by cases hi <;> simp⟩
  | _ => exact .inl rfl

/-! ### The instruction counter -/

/-- An instruction of a run that goes on advances IC or jumps, and any other leaves IC (10_state.md R20). -/
theorem exec_ic (h : exec i s = .next t) (hr : s.runState = .running) :
    (t.runState = .running ∧ (t.ic = s.ic + 1 ∨ ∃ a : Operand, a.toNat < 1000 ∧ t.ic.toNat = a.toNat ∧
      (i = .branch a ∨ (i = .branchzero a ∧ s.acc = 0)))) ∨
    (t.runState ≠ .running ∧ t.ic = s.ic) := by
  cases exec_cases h with
  | badAddress | arithError | read | halt | terminate => exact .inr ⟨nofun, rfl⟩
  | taken a hi ha => exact .inl ⟨hr, .inr ⟨a, ha, by simp; omega, hi⟩⟩
  | _ => exact .inl ⟨hr, .inl rfl⟩

/-- A step that leaves the run RUNNING advances IC or jumps, and any other leaves IC (10_state.md R20, R21). -/
theorem step_ic (h : step s = .next t) :
    (t.runState = .running ∧ (t.ic = s.ic + 1 ∨
      (s.runState = .running ∧ ∃ a : Operand, a.toNat < 1000 ∧ t.ic.toNat = a.toNat ∧
        (decode (fetchedWord s) = .ok (.branch a) ∨
          (decode (fetchedWord s) = .ok (.branchzero a) ∧ s.acc = 0))))) ∨
    (t.runState ≠ .running ∧ t.ic = s.ic) := by
  cases step_cases h with
  | offTheEnd | invalid => exact .inr ⟨nofun, rfl⟩
  | answered => exact .inl ⟨rfl, .inl rfl⟩
  | instr i _ hr _ hd hexec =>
    rcases exec_ic hexec hr with ⟨ht, hic | ⟨a, ha, hic, hi⟩⟩ | hkept
    · exact .inl ⟨ht, .inl hic⟩
    · refine .inl ⟨ht, .inr ⟨hr, a, ha, hic, ?_⟩⟩
      rcases hi with rfl | ⟨rfl, hacc⟩
      · exact .inl hd
      · exact .inr ⟨hd, hacc⟩
    · exact .inr hkept

/-! ### The frames that all instructions share -/

/-- READ leaves IC, whether it waits or raises its error (41_io.md R77). -/
theorem exec_read_ic {a : Operand} (h : exec (.read a) s = .next t) : t.ic = s.ic := by
  rw [exec_read] at h
  rcases withAddress_cases h with ⟨-, rfl⟩ | ⟨-, rfl⟩ <;> rfl

/-- No instruction touches the host's words to come; only the second step of READ takes one. -/
theorem exec_answers (h : exec i s = .next t) : t.answers = s.answers := by
  cases exec_cases h <;> simp

/-- Only READ uses the input channel. -/
theorem exec_inputChannel (h : exec i s = .next t) (hi : ∀ a, i ≠ .read a) :
    t.inputPending = s.inputPending ∧ t.inputRequests = s.inputRequests := by
  cases exec_cases h with
  | read a hread => exact absurd hread (hi a)
  | _ => exact ⟨rfl, rfl⟩

/-- Only STORE writes memory. -/
theorem exec_sameMemory (h : exec i s = .next t) (hi : ∀ a, i ≠ .store a) : SameMemory s t := by
  rcases exec_mem h with hm | ⟨a, hstore, -⟩
  · exact fun b => by rw [hm]
  · exact absurd hstore (hi a)

/-- An instruction that moves IC does not end the run or wait. -/
theorem exec_runState_of_ic_ne (h : exec i s = .next t) (hne : t.ic ≠ s.ic) :
    t.runState = s.runState ∧ t.exitCode = s.exitCode := by
  cases exec_cases h with
  | badAddress | arithError | read | halt | terminate => exact absurd rfl hne
  | _ => exact ⟨rfl, rfl⟩

/-- Of the instructions that move IC only WRITE and NEWLINE emit. -/
theorem exec_output_of_ic_ne (h : exec i s = .next t) (hne : t.ic ≠ s.ic) :
    t.output = s.output ∨ (∃ a, i = .write a) ∨ ∃ x, i = .newline x := by
  cases exec_cases h with
  | badAddress | arithError | read | halt | terminate => exact absurd rfl hne
  | write a hi => exact .inr (.inl ⟨a, hi⟩)
  | newline x hi => exact .inr (.inr ⟨x, hi⟩)
  | _ => exact .inl rfl

/-- An instruction that leaves IC has not advanced, so it has not written ACC. -/
theorem exec_acc_of_ic_eq (h : exec i s = .next t) (hic : t.ic = s.ic) : t.acc = s.acc := by
  have hadvance : s.ic + 1 ≠ s.ic := by bv_omega
  cases exec_cases h with
  | load | arithResult => exact absurd hic hadvance
  | _ => rfl

/-! ### The output -/

/-- The events of each instruction (20_memory.md R52). -/
theorem exec_output (h : exec i s = .next t) : ∃ es, t.output = s.output ++ es ∧
    (es = [] ∨ (es = [.prompt] ∧ ∃ a, i = .read a) ∨
     (∃ a : Operand, es = [.write a (s.mem.read a.toNat)] ∧ i = .write a) ∨
     (es = [.newline] ∧ ∃ x, i = .newline x) ∨
     (es = [.haltMessage, dumpEvent s] ∧ ∃ x, i = .halt x) ∨
     (∃ k, es = [dumpEvent s, .fatal k] ∧ t.runState = .aborted k)) := by
  cases exec_cases h with
  | badAddress | arithError =>
    exact ⟨_, raise_output .., .inr (.inr (.inr (.inr (.inr ⟨_, rfl, rfl⟩))))⟩
  | read a hi => exact ⟨_, rfl, .inr (.inl ⟨rfl, a, hi⟩)⟩
  | write a hi => exact ⟨_, rfl, .inr (.inr (.inl ⟨a, rfl, hi⟩))⟩
  | newline x hi => exact ⟨_, rfl, .inr (.inr (.inr (.inl ⟨rfl, x, hi⟩)))⟩
  | halt x hi =>
    exact ⟨_, List.append_assoc .., .inr (.inr (.inr (.inr (.inl ⟨rfl, x, hi⟩))))⟩
  | _ => exact ⟨[], (List.append_nil _).symm, .inl rfl⟩

end Sys2Proof.Machine
end

section
open Sys2Proof Sys2Proof.Machine

/-- Settles O24: an instruction that is not one of the five leaves ACC, and so does every other step. -/
theorem accumulatorWrittenOnlyByLoadAndArithmetic :
    Obligations.AccumulatorWrittenOnlyByLoadAndArithmetic := by
  intro s t h hne
  cases step_cases h with
  | offTheEnd | invalid | answered => exact absurd rfl hne
  | instr i _ hr _ hd hexec =>
    rcases exec_acc hexec with hacc | ⟨a, ha, hi⟩
    · exact absurd hacc hne
    · refine ⟨hr, a, ha, ?_⟩
      rcases hi with rfl | rfl | rfl | rfl | rfl
      · exact .inl hd
      · exact .inr (.inl hd)
      · exact .inr (.inr (.inl hd))
      · exact .inr (.inr (.inr (.inl hd)))
      · exact .inr (.inr (.inr (.inr hd)))

/-- Settles O25. -/
theorem counterChangesOnlyAsStated : Obligations.CounterChangesOnlyAsStated := by
  intro s t h
  rcases step_ic h with ⟨ht, hic⟩ | ⟨ht, hic⟩
  · exact ⟨fun _ => hic, fun hne => absurd ht hne⟩
  · exact ⟨fun hrunning => absurd hrunning ht, fun _ => hic⟩

/-- Settles O26: the shared frames, of which none excepts one of these five instructions. -/
theorem loadAndArithmeticFrame : Obligations.LoadAndArithmeticFrame := by
  intro i a s t hi h
  have hread : ∀ b, i ≠ .read b := by rcases hi with rfl | rfl | rfl | rfl | rfl <;> exact nofun
  have hstore : ∀ b, i ≠ .store b := by rcases hi with rfl | rfl | rfl | rfl | rfl <;> exact nofun
  have hsilent : ¬((∃ b, i = .write b) ∨ ∃ x, i = .newline x) := by
    rcases hi with rfl | rfl | rfl | rfl | rfl <;> simp
  obtain ⟨hopc, hopr⟩ := exec_opc_opr h
  obtain ⟨hpending, hrequests⟩ := exec_inputChannel h hread
  exact ⟨exec_sameMemory h hstore, exec_ir h, hopc, hopr, hpending, hrequests, exec_answers h,
    fun hne => ⟨(exec_output_of_ic_ne h hne).resolve_right hsilent, exec_runState_of_ic_ne h hne⟩,
    exec_acc_of_ic_eq h⟩

/-- Settles O28: past the operand check STORE is one write and an advance, and its error writes nothing. -/
theorem storeFrame : Obligations.StoreFrame := by
  intro a s t h
  rcases Nat.lt_or_ge a.toNat 1000 with ha | ha
  · rw [exec_store_valid s ha] at h
    cases h
    refine ⟨?_, fun ha' => absurd ha (Nat.not_lt.mpr ha'), rfl, rfl, rfl, rfl, rfl, rfl, rfl,
      fun _ => ⟨rfl, rfl, rfl⟩⟩
    rintro d rfl b hb
    exact Memory.read_write_other s.mem _ s.acc hb
  · rw [exec_badAddress (i := .store a) s (by simp [Instr.kind]) ha] at h
    cases h
    exact ⟨fun _ _ _ _ => rfl, fun _ _ => rfl, rfl, rfl, rfl, rfl, rfl, rfl, rfl,
      fun ha' => absurd ha' (Nat.not_lt.mpr ha)⟩

/-- Settles O29: the second step of READ is one write at OPR, the acceptance of the word and an advance. -/
theorem readSecondStepFrame : Obligations.ReadSecondStepFrame := by
  intro s t hw h
  obtain ⟨w, ws, -, -, rfl⟩ := step_waiting_cases h hw
  refine ⟨?_, rfl, rfl, rfl, rfl, rfl, rfl, rfl⟩
  rintro d rfl b hb
  exact Memory.read_write_other s.mem _ w hb

/-- Settles O30: the events of an instruction are dumps of the state after the fetch, at which it executes. -/
theorem eventsOfOneStep : Obligations.EventsOfOneStep := by
  intro s t h
  cases step_cases h with
  | offTheEnd | answered => exact ⟨[], (List.append_nil _).symm, .inl rfl⟩
  | invalid hr =>
    exact ⟨_, raise_output .., .inr ⟨hr, .inr (.inr (.inr (.inr ⟨_, rfl, rfl⟩)))⟩⟩
  | instr i _ hr _ hd hexec =>
    obtain ⟨es, hout, hes⟩ := exec_output hexec
    refine ⟨es, hout, hes.imp_right fun hes => ⟨hr, ?_⟩⟩
    rcases hes with ⟨he, a, rfl⟩ | ⟨a, he, rfl⟩ | ⟨he, x, rfl⟩ | ⟨he, x, rfl⟩ | herror
    · exact .inl ⟨he, a, hd⟩
    · exact .inr (.inl ⟨a, he, hd⟩)
    · exact .inr (.inr (.inl ⟨he, x, hd⟩))
    · exact .inr (.inr (.inr (.inl ⟨he, x, hd⟩)))
    · exact .inr (.inr (.inr (.inr herror)))

/-- Settles O27: the shared frames again, with the exceptions of READ, WRITE and NEWLINE. -/
theorem ioBranchAndEndFrame : Obligations.IoBranchAndEndFrame := by
  intro i a s t hi h
  have hstore : ∀ b, i ≠ .store b := by
    rcases hi with rfl | rfl | rfl | rfl | rfl | rfl | rfl | rfl <;> exact nofun
  obtain ⟨hopc, hopr⟩ := exec_opc_opr h
  refine ⟨exec_sameMemory h hstore, ?_, exec_ir h, hopc, hopr, exec_answers h, fun hread => ?_, ?_,
    exec_runState_of_ic_ne h, fun hne hbranch => ?_⟩
  · refine (exec_acc h).resolve_right ?_
    rintro ⟨b, -, hb⟩
    rcases hi with rfl | rfl | rfl | rfl | rfl | rfl | rfl | rfl <;> simp at hb
  · refine exec_inputChannel h fun b hb => hread ?_
    rcases hi with rfl | rfl | rfl | rfl | rfl | rfl | rfl | rfl <;> cases hb
    rfl
  · rintro (rfl | rfl | rfl)
    · exact exec_read_ic h
    · cases h; rfl
    · cases h; rfl
  · refine (exec_output_of_ic_ne h hne).resolve_right ?_
    rcases hbranch with rfl | rfl | rfl <;> simp

end

section
/-! SUPPORT. What a step does not look at: a change of the state that every operation commutes with commutes with
every step. The host's words to come and the events already emitted are such changes. -/

namespace Sys2Proof.Machine

/-- A change of the state that no operation of the instructions reads, and that each of them keeps. -/
structure Unobserved (f : State → State) : Prop where
  get (s : State) (r : Reg) : (f s).get r = s.get r
  mem (s : State) : (f s).mem = s.mem
  runState (s : State) : (f s).runState = s.runState
  set (s : State) (r : Reg) (v : Word) : (f s).set r v = f (s.set r v)
  store (s : State) (a : Nat) (v : Word) : (f s).store a v = f (s.store a v)
  emit (s : State) (e : Event) : emit e (f s) = f (emit e s)
  requestInput (s : State) : requestInput (f s) = f (requestInput s)
  finish (s : State) : finish (f s) = f (finish s)
  raise (s : State) (k : ErrorKind) : raise k (f s) = f (raise k s)

/-- The host's words to come are read and taken by the second step of READ alone. -/
theorem unobserved_answers (ws : List Word) : Unobserved fun s => { s with answers := ws } where
  get _ r := by cases r <;> rfl
  mem _ := rfl
  runState _ := rfl
  set _ r _ := by cases r <;> rfl
  store _ _ _ := rfl
  emit _ _ := rfl
  requestInput _ := rfl
  finish _ := rfl
  raise _ _ := rfl

/-- Events are appended at the end, so events in front stay in front. -/
theorem unobserved_output (es : List Event) : Unobserved fun s => { s with output := es ++ s.output } where
  get _ r := by cases r <;> rfl
  mem _ := rfl
  runState _ := rfl
  set _ r _ := by cases r <;> rfl
  store _ _ _ := rfl
  emit s e := by simp [emit]
  requestInput _ := rfl
  finish _ := rfl
  raise s k := by simp [raise, emit, dumpOf, State.get]

namespace Unobserved

variable {f : State → State} {s : State}

theorem load (hf : Unobserved f) (s : State) (a : Nat) : (f s).load a = s.load a := by
  rw [State.load, State.load, hf.mem]

theorem advance (hf : Unobserved f) (s : State) : advance (f s) = f (advance s) := by
  rw [Machine.advance, hf.get, hf.set, Machine.advance]

theorem dumpOf (hf : Unobserved f) (s : State) : dumpOf (f s) = dumpOf s := by
  simp only [Machine.dumpOf, hf.get, hf.mem]

/-! ### The instructions -/

theorem withAddress (hf : Unobserved f) (a : Operand) (s : State) {rule rule' : Nat → State}
    (hrule : ∀ n, rule' n = f (rule n)) : withAddress a (f s) rule' = mapNext f (withAddress a s rule) := by
  rcases Nat.lt_or_ge a.toNat 1000 with ha | ha
  · rw [withAddress_valid _ _ ha, withAddress_valid _ _ ha, hrule, mapNext]
  · rw [withAddress_invalid _ _ ha, withAddress_invalid _ _ ha, hf.raise, mapNext]

theorem writeResult (hf : Unobserved f) (r : Except ErrorKind Word) (s : State) :
    writeResult r (f s) = f (writeResult r s) := by
  cases r with
  | ok v => simp only [Machine.writeResult, hf.set, hf.advance]
  | error k => exact hf.raise s k

theorem arith (hf : Unobserved f) (op : AluOp) (a : Operand) (s : State) :
    arith op a (f s) = mapNext f (arith op a s) :=
  hf.withAddress a s fun n => by rw [hf.get, hf.load, hf.writeResult]

theorem branchIf (hf : Unobserved f) (taken : Bool) (a : Operand) (s : State) :
    branchIf taken a (f s) = mapNext f (branchIf taken a s) :=
  hf.withAddress a s fun n => by cases taken <;> [exact hf.advance s; exact hf.set s .ic _]

theorem exec (hf : Unobserved f) (i : Instr) (s : State) : exec i (f s) = mapNext f (exec i s) := by
  have hacc : (f s).acc = s.acc := hf.get s .acc
  cases i with
  | read a =>
    rw [exec_read, exec_read]
    exact hf.withAddress a s fun n => by rw [hf.emit, hf.requestInput]
  | write a =>
    rw [exec_write, exec_write]
    exact hf.withAddress a s fun n => by rw [hf.mem, hf.emit, hf.advance]
  | newline x => rw [exec_newline, exec_newline, hf.emit, hf.advance, mapNext]
  | load a =>
    rw [exec_load, exec_load]
    exact hf.withAddress a s fun n => by rw [hf.mem, hf.set, hf.advance]
  | store a =>
    rw [exec_store, exec_store]
    exact hf.withAddress a s fun n => by rw [hacc, hf.store, hf.advance]
  | add a => exact hf.arith .add a s
  | subtract a => exact hf.arith .subtract a s
  | divide a => exact hf.arith .divide a s
  | multiply a => exact hf.arith .multiply a s
  | branch a => exact hf.branchIf true a s
  | branchneg a => rw [exec_branchneg, exec_branchneg, hf.branchIf]
  | branchzero a => rw [exec_branchzero, exec_branchzero, hacc, hf.branchIf]
  | halt x => rw [exec_halt, exec_halt, hf.dumpOf, hf.emit, hf.emit, hf.finish, mapNext]
  | terminate x => rw [exec_terminate, exec_terminate, hf.finish, mapNext]

/-! ### The cycle -/

theorem afterFetch (hf : Unobserved f) (s : State) : afterFetch (f s) = f (afterFetch s) := by
  simp only [← decodeFields_fetchWord, decodeFields, fetchWord, hf.get, hf.load, hf.set]

theorem checkAndExecute (hf : Unobserved f) (s : State) :
    checkAndExecute (f s) = mapNext f (checkAndExecute s) := by
  rw [Machine.checkAndExecute, Machine.checkAndExecute, hf.get]
  cases decode (s.get .ir) with
  | ok i => exact hf.exec i s
  | error e =>
    cases e
    exact congrArg Host.Outcome.next (hf.raise s .invalidOpcode)

theorem cycle (hf : Unobserved f) (s : State) : cycle (f s) = mapNext f (cycle s) := by
  have hic : (f s).ic = s.ic := hf.get s .ic
  rcases Nat.lt_or_ge s.ic.toNat 1000 with h | h
  · rw [cycle_fetch h, cycle_fetch (hic ▸ h), hf.afterFetch, hf.checkAndExecute]
  · rw [cycle_end h, cycle_end (hic ▸ h), hf.finish, mapNext]

/-- Outside WAIT_INPUT a step is a cycle, or there is none. -/
theorem step (hf : Unobserved f) (hw : s.runState ≠ .waitInput) : step (f s) = mapNext f (step s) := by
  have hrun : (f s).runState = s.runState := hf.runState s
  cases hr : s.runState with
  | waitInput => exact absurd hr hw
  | running => rw [step_running hr, step_running (hrun.trans hr), hf.cycle]
  | notStarted => rw [step_of_notStarted hr, step_of_notStarted (hrun.trans hr), mapNext]
  | halted => rw [step_of_terminal (.inl hr), step_of_terminal (.inl (hrun.trans hr)), mapNext]
  | aborted k => rw [step_of_terminal (.inr ⟨k, hr⟩), step_of_terminal (.inr ⟨k, hrun.trans hr⟩), mapNext]

end Unobserved

/-- The second step of READ emits nothing, and does not read the output either. -/
theorem finishRead_output (w : Word) (ws : List Word) (s : State) (es : List Event) :
    finishRead w ws { s with output := es ++ s.output } =
      mapNext (fun t => { t with output := es ++ t.output }) (finishRead w ws s) := by
  rcases Nat.lt_or_ge s.opr.toNat 1000 with hopr | hopr
  · rw [finishRead_valid w ws hopr]
    exact finishRead_valid w ws hopr
  · rw [finishRead_invalid w ws hopr]
    exact finishRead_invalid w ws hopr

/-- A cycle inside the memory sees the state after the fetch alone (40_cycle.md R66 to R70). -/
theorem step_of_fetch {s : State} (hr : s.runState = .running) (hic : s.ic.toNat < 1000) :
    step s = checkAndExecute (afterFetch s) := by
  rw [step_running hr, cycle_fetch hic]

end Sys2Proof.Machine
end

section
open Sys2Proof Sys2Proof.Machine

/-- Settles O31. -/
theorem stepIgnoresUnrequestedWords : Obligations.StepIgnoresUnrequestedWords :=
  fun _ ws hw => (unobserved_answers ws).step hw

/-- Settles O32: the fetch overwrites the three fields, so the state after it is the same. -/
theorem stepIgnoresOldFetchedFields : Obligations.StepIgnoresOldFetchedFields := by
  intro s x y z hr hic
  calc step { s with ir := x, opc := y, opr := z } = checkAndExecute (afterFetch s) := step_of_fetch hr hic
    _ = step s := (step_of_fetch hr hic).symm

/-- Settles O33: the output is unobserved in WAIT_INPUT too. -/
theorem stepNeverReadsOutput : Obligations.StepNeverReadsOutput := by
  intro s es
  by_cases hw : s.runState = .waitInput
  · cases hws : s.answers with
    | nil =>
      rw [step_of_no_answer hw hws]
      exact step_of_no_answer hw rfl
    | cons w ws =>
      rw [step_of_answered hw hws, ← finishRead_output]
      exact step_of_answered hw rfl
  · exact (unobserved_output es).step hw

end

section
/-! SUPPORT. The fetch that follows a STORE or a BRANCH, and IC at the end test. -/

namespace Sys2Proof.Machine

variable {s : State} {a : Operand}

/-- A step that executes a STORE with a valid operand (42_load_store.md R82). -/
theorem step_of_decode_store (hr : s.runState = .running) (hic : s.ic.toNat < 1000)
    (hd : decode (fetchedWord s) = .ok (.store a)) (ha : a.toNat < 1000) :
    step s = .next (advance ((afterFetch s).store a.toNat s.acc)) := by
  rw [step_of_decode_ok hr hic hd, exec_store_valid _ ha, afterFetch_acc]

/-- A step that executes a BRANCH with a valid target (44_control.md R92). -/
theorem step_of_decode_branch (hr : s.runState = .running) (hic : s.ic.toNat < 1000)
    (hd : decode (fetchedWord s) = .ok (.branch a)) (ha : a.toNat < 1000) :
    step s = .next { afterFetch s with ic := BitVec.ofNat 20 a.toNat } := by
  rw [step_of_decode_ok hr hic hd, exec_branch, branchIf_taken _ ha]

/-- A cycle that fetches has a next state, with the fetched word in IR. -/
theorem step_fetches (hr : s.runState = .running) (hic : s.ic.toNat < 1000) :
    ∃ t, step s = .next t ∧ t.ir = fetchedWord s := by
  obtain ⟨t, h⟩ := step_next_of_fetch hr hic
  exact ⟨t, h, step_ir_of_fetch h hr hic⟩

/-- In every run state but HALTED and RUNNING the invariant puts IC at an address of the memory. -/
theorem State.Inv.ic_le_of_not_running (hs : s.Inv) (hr : s.runState ≠ .running)
    (hh : s.runState ≠ .halted) : s.ic.toNat ≤ 999 := by
  cases hrun : s.runState with
  | notStarted =>
    obtain ⟨-, hic, -⟩ := hs.fresh hrun
    simp [hic]
  | running => exact absurd hrun hr
  | waitInput => exact (hs.waiting hrun).1
  | halted => exact absurd hrun hh
  | aborted k => exact (hs.aborted k hrun).1

/-- Past the memory the end test ends the run. -/
theorem afterEndTest_of_end (hr : s.runState = .running) (hic : 1000 ≤ s.ic.toNat) :
    afterEndTest s = finish s :=
  if_pos ⟨hr, hic⟩

/-- Elsewhere the end test changes nothing. -/
theorem afterEndTest_of_not_end (h : ¬(s.runState = .running ∧ 1000 ≤ s.ic.toNat)) : afterEndTest s = s :=
  if_neg h

end Sys2Proof.Machine
end

section
open Sys2Proof Sys2Proof.Machine

/-- Settles O34: the advance of the STORE reaches the word it stored. -/
theorem storedWordIsFetchedNext : Obligations.StoredWordIsFetchedNext := by
  intro s a hr hic hwf hd ha
  have hstep := step_of_decode_store hr (by omega) hd (by omega)
  have hnext : (s.ic + 1).toNat = a.toNat := by bv_omega
  have hin : (s.ic + 1).toNat < 1000 := by omega
  obtain ⟨u, hu, hir⟩ := step_fetches (s := advance ((afterFetch s).store a.toNat s.acc)) hr hin
  refine ⟨_, u, hstep, hnext, rfl, hu, ?_⟩
  calc u.ir = (s.mem.write a.toNat s.acc).read (s.ic + 1).toNat := hir
    _ = s.acc := by rw [hnext, Memory.read_write_same hwf]

/-- Settles O57: the jump leaves the run RUNNING with IC at the target. -/
theorem branchTargetIsFetchedNext : Obligations.BranchTargetIsFetchedNext := by
  intro s a hr hic hd ha
  have hstep := step_of_decode_branch hr hic hd ha
  have htarget : (BitVec.ofNat 20 a.toNat).toNat = a.toNat := by
    rw [BitVec.toNat_ofNat, Nat.mod_eq_of_lt (by omega)]
  obtain ⟨u, hu, hir⟩ :=
    step_fetches (s := { afterFetch s with ic := BitVec.ofNat 20 a.toNat }) hr (htarget.symm ▸ ha)
  refine ⟨_, u, hstep, hr, htarget, fun _ => rfl, rfl, hu, ?_⟩
  calc u.ir = s.mem.read (BitVec.ofNat 20 a.toNat).toNat := hir
    _ = s.mem.read a.toNat := by rw [htarget]

/-- Settles O45: the ALU's quotient is the integer quotient, which no wrapping changes. -/
theorem divideLeavesAProperRemainder : Obligations.DivideLeavesAProperRemainder := by
  intro a s ha hm
  have hquot : (BitVec.ofNat 20 (s.acc.toNat / (s.mem.read a.toNat).toNat)).toNat =
      s.acc.toNat / (s.mem.read a.toNat).toNat := by
    rw [BitVec.toNat_ofNat, Nat.mod_eq_of_lt (Nat.lt_of_le_of_lt (Nat.div_le_self _ _) s.acc.isLt)]
  refine ⟨_, exec_arith_ok (.divide a) ha ((alu_divide _ _).trans (if_neg hm)), ?_, ?_⟩
  · exact hquot.symm ▸ Nat.div_mul_le_self _ _
  · exact hquot.symm ▸ Nat.lt_mul_of_div_lt (Nat.lt_succ_self _) (Nat.pos_of_ne_zero hm)

/-- Settles O55: only RUNNING admits IC = 1000, and only an advance can lead there, for a target is an
address. -/
theorem counterIsAnAddressUntilTheEnd : Obligations.CounterIsAnAddressUntilTheEnd := by
  refine fun s hs => ⟨fun hh => ?_, fun hw => (hs.waiting hw).1, fun t h ht hic => ?_⟩
  · by_cases hr : s.runState = .running
    · rcases Nat.lt_or_ge s.ic.toNat 1000 with hic | hic
      · exact .inl (Nat.le_of_lt_succ hic)
      · exact .inr ⟨hr, Nat.le_antisymm hs.ic_le hic, step_of_end hr hic⟩
    · exact .inl (hs.ic_le_of_not_running hr hh)
  · rcases step_ic h with ⟨-, hadvance | ⟨-, a, ha, hjump, -⟩⟩ | ⟨hstop, -⟩
    · rw [hadvance] at hic
      exact ⟨by bv_omega, hadvance⟩
    · omega
    · exact absurd ht hstop

/-- Settles O56: the end test is the machine's step at the one state with IC = 1000 that is not HALTED, and no
change elsewhere. -/
theorem counterInRangeOnceTheEndIsTested : Obligations.CounterInRangeOnceTheEndIsTested := by
  intro s hs
  by_cases hend : s.runState = .running ∧ 1000 ≤ s.ic.toNat
  · obtain ⟨hr, hic⟩ := hend
    rw [afterEndTest_of_end hr hic]
    have hstep := step_of_end hr hic
    exact ⟨by simp, fun _ => rfl, .inr hstep, step_inv hs hstep⟩
  · rw [afterEndTest_of_not_end hend]
    have hle : s.runState ≠ .halted → s.ic.toNat ≤ 999 := by
      intro hh
      by_cases hr : s.runState = .running
      · exact Nat.le_of_lt_succ (Nat.lt_of_not_le fun hic => hend ⟨hr, hic⟩)
      · exact hs.ic_le_of_not_running hr hh
    refine ⟨fun hrun => hle ?_, fun hic => ?_, .inl rfl, hs⟩
    · rcases hrun with hrun | hrun <;> simp [hrun]
    · by_contra hh
      have := hle hh
      omega

end

section
open Sys2Proof Sys2Proof.Machine

/-- Settles O37. -/
theorem newlineEmitsALineBreak : Obligations.NewlineEmitsALineBreak :=
  fun x s => ⟨decode_ofNat (.newline x), exec_newline x s⟩

/-- Settles O47: no word is negative, so BRANCHNEG is the branch that is never taken. -/
theorem branchnegNeverTaken : Obligations.BranchnegNeverTaken := by
  refine fun t s => ⟨decode_ofNat (.branchneg t), fun ht => ?_, fun ht => ?_⟩
  · rw [exec_branchneg, branchIf_badTarget false s ht]
  · rw [exec_branchneg, branchIf_notTaken s ht]

/-- Settles O49: the two emissions append one after the other. -/
theorem haltDumpsAndStops : Obligations.HaltDumpsAndStops := by
  refine fun x s => ⟨decode_ofNat (.halt x), ?_⟩
  have hout : (emit (.dump (dumpOf s)) (emit .haltMessage s)).output =
      s.output ++ [.haltMessage, dumpEvent s] := List.append_assoc ..
  rw [exec_halt, ← hout]
  rfl

/-- Settles O50. -/
theorem terminateStopsSilently : Obligations.TerminateStopsSilently :=
  fun x s => ⟨decode_ofNat (.terminate x), exec_terminate x s⟩

/-- Settles O51: the reset state has no listed word, and an address that is not listed reads 0. -/
theorem resetLeavesTheStatedValues : Obligations.ResetLeavesTheStatedValues :=
  fun _ => ⟨rfl, rfl, rfl, rfl, rfl, Memory.read_nil, rfl, rfl, rfl, rfl⟩

/-- Settles O52: a preload is one write of the memory. -/
theorem preloadWritesOneWordBeforeStart : Obligations.PreloadWritesOneWordBeforeStart := by
  refine fun a w s hwf => ⟨fun hn ha => ?_, hostPreload_of_started a w⟩
  exact ⟨_, hostPreload_eq_some.mpr ⟨hn, ha, rfl⟩, rfl, Memory.read_write_same hwf a w,
    fun b hb => Memory.read_write_other s.mem a w hb, Memory.wf_write w hwf ha⟩

/-- Settles O53: after the start the run is RUNNING, so it cannot start again, and its first cycle fetches. -/
theorem startRunsFromAddressZero : Obligations.StartRunsFromAddressZero := by
  intro s hn hic
  have hzero : s.ic.toNat = 0 := by rw [hic]; rfl
  obtain ⟨u, hu, hir⟩ := step_fetches (s := { s with runState := .running }) rfl (by simp [hzero])
  refine ⟨_, u, hostStart_eq_some.mpr ⟨hn, rfl⟩, rfl, hostStart_of_started nofun, hu, ?_⟩
  rw [hir, fetchedWord, hzero]

/-- Settles O54: the reset memory reads 0 at address 0, and the opcode 0 is invalid. -/
theorem startWithNoPreloadAborts : Obligations.StartWithNoPreloadAborts := by
  have hinvalid : decode (fetchedWord { State.reset with runState := .running }) = .error .invalidOpcode :=
    (decode_eq_invalidOpcode_iff _).mpr (by decide)
  exact ⟨_, _, hostStart_eq_some.mpr ⟨rfl, rfl⟩, step_of_decode_invalidOpcode rfl (by decide) hinvalid, rfl, rfl,
    rfl, rfl⟩

end
